-- ==== Sys2Proof/Word.lean ====
section
/-! DEFINITION. The widths of 00_scope.md R4: a buffer byte, the 64-bit command word, operand and
result. Bits of a vector are numbered as R7 numbers them, bit 0 least significant. -/

namespace Sys2Proof

/-- A buffer byte, 8 bits (R4). -/
abbrev Byte := BitVec 8

/-- 64 bits: `CMD` (`CMDW = 64`), `OPA` and `RES` (`XW = 64`), R4. -/
abbrev Word := BitVec 64

/-- `XW` of R4: the width of `OPA` and `RES`, and the largest width of a bit sequence (R61). -/
abbrev XW : Nat := 64

end Sys2Proof
end

