-- ==== Sys2Proof/Syntax.lean ====
section
/-! DEFINITION. The BFX command set, version 1 (00_scope.md R1): one constructor per row of
spec/opcode_table.json, with the fields that 30_encoding.md R48 calls used. Ignored fields are no
part of a command (R53). Operands are naturals (R8, R42); their ranges are in WellFormed. -/

namespace Sys2Proof

/-- The size of a result type, coded by `SZ` (R45). -/
inductive Size where
  | bits8
  | bits16
  | bits32
  | bits64
  deriving DecidableEq, Repr, Inhabited

/-- The result type of GETMSB, GETLSB, SPLICE and SPLICE2: the pair (`S`, `SZ`), R43.
All eight are legal. -/
structure ResultType where
  signed : Bool
  size : Size
  deriving DecidableEq, Repr, Inhabited

/-- The six commands of R47, with their operands in the order of R57. -/
inductive Instr where
  /-- FLIP, R63: reverse the `n` low bits of `OPA`. -/
  | flip (n : Nat)
  /-- SUBSET, R66: `length` bits of the `n`-bit sequence on `OPA`, from bit `offset` on. -/
  | subset (offset length n : Nat)
  /-- GETMSB, R74: the span of buffer 1 at MSB index `start`, `width` bits, as a `t`. -/
  | getmsb (t : ResultType) (start width : Nat)
  /-- GETLSB, R82: the span of buffer 1 at LSB index `start`, `width` bits, as a `t`. -/
  | getlsb (t : ResultType) (start width : Nat)
  /-- SPLICE, R90: two spans of buffer 1, joined, as a `t`. -/
  | splice (t : ResultType) (start1 width1 start2 width2 : Nat)
  /-- SPLICE2, R94: a span of buffer 1 and a span of buffer 2, joined, as a `t`. -/
  | splice2 (t : ResultType) (start1 width1 start2 width2 : Nat)
  deriving DecidableEq, Repr, Inhabited

end Sys2Proof
end

