-- ==== Sys2Proof/WellFormed.lean ====
section
/-! DEFINITION. A command is well formed when its operands fit the fields of the command word
(30_encoding.md R42, R56): the assembler refuses a start above 65535 and a width above 127 and
nothing else (R58). A width of 0 or above the capacity is well formed, and faults (R103, R104). -/

namespace Sys2Proof

/-- A start index fits the 16 bits of `START1` and `START2` (R42). -/
def startFits (start : Nat) : Bool := decide (start ≤ 65535)

/-- A width fits the 7 bits of `WIDTH1` and `WIDTH2` (R42). -/
def widthFits (width : Nat) : Bool := decide (width ≤ 127)

/-- Every operand fits its field (R58). -/
def Instr.wf : Instr → Bool
  | .flip n => widthFits n
  | .subset offset length n => startFits offset && widthFits length && widthFits n
  | .getmsb _ start width => startFits start && widthFits width
  | .getlsb _ start width => startFits start && widthFits width
  | .splice _ start1 width1 start2 width2 =>
    startFits start1 && widthFits width1 && startFits start2 && widthFits width2
  | .splice2 _ start1 width1 start2 width2 =>
    startFits start1 && widthFits width1 && startFits start2 && widthFits width2

/-- `Instr.wf` as a proposition. -/
abbrev WellFormed (i : Instr) : Prop := i.wf = true

end Sys2Proof
end

