-- ==== Sys2Proof/Decode.lean ====
section
/-! DEFINITION. The command word: format C of 30_encoding.md R41, `Decode` (R53), `Encode` (R54). -/

namespace Sys2Proof

/-- `w[lo+len-1 : lo]` as an unsigned number (00_scope.md R7, 30_encoding.md R42). -/
def field (w : Word) (lo len : Nat) : Nat := (w.toNat >>> lo) % 2 ^ len

/-! The fields of format C, R41. -/

/-- `OP = CMD[63:60]`. -/
def opOf (w : Word) : Nat := field w 60 4
/-- `S = CMD[59]`. -/
def sOf (w : Word) : Nat := field w 59 1
/-- `SZ = CMD[58:57]`. -/
def szOf (w : Word) : Nat := field w 57 2
/-- `RSV = CMD[56:46]`. -/
def rsvOf (w : Word) : Nat := field w 46 11
/-- `START1 = CMD[45:30]`. -/
def start1Of (w : Word) : Nat := field w 30 16
/-- `WIDTH1 = CMD[29:23]`. -/
def width1Of (w : Word) : Nat := field w 23 7
/-- `START2 = CMD[22:7]`. -/
def start2Of (w : Word) : Nat := field w 7 16
/-- `WIDTH2 = CMD[6:0]`. -/
def width2Of (w : Word) : Nat := field w 0 7

/-- The code `SZ` of a size, R45. -/
def Size.code : Size → Nat
  | .bits8 => 0
  | .bits16 => 1
  | .bits32 => 2
  | .bits64 => 3

/-- The size that a two-bit code selects, R45; the code 3 is the last case. -/
def Size.ofCode : Nat → Size
  | 0 => .bits8
  | 1 => .bits16
  | 2 => .bits32
  | _ => .bits64

/-- `RTYPE = {S, SZ}` of a result type, R46. -/
def ResultType.rtype (t : ResultType) : Nat := t.signed.toNat * 4 + t.size.code

/-- The result type of a word: `S` and `SZ`, R43, R44, R45. -/
def resultTypeOf (w : Word) : ResultType := ⟨sOf w == 1, Size.ofCode (szOf w)⟩

/-- Why a word selects no command. Both are `IllegalCommand` (60_exceptions.md R105). -/
inductive Reject where
  /-- `RSV` is not zero (R49); tested before the opcode (R53). -/
  | reservedBits
  /-- `OP` is 0 or 7 to 15 (R50). -/
  | reservedOpcode
  deriving DecidableEq, Repr

/-- `Decode` of R53: total, every word selects one of the six commands or is illegal (R51). -/
def decode (w : Word) : Except Reject Instr :=
  if rsvOf w ≠ 0 then .error .reservedBits
  else match opOf w with
    | 1 => .ok (.flip (width1Of w))
    | 2 => .ok (.subset (start1Of w) (width1Of w) (width2Of w))
    | 3 => .ok (.getmsb (resultTypeOf w) (start1Of w) (width1Of w))
    | 4 => .ok (.getlsb (resultTypeOf w) (start1Of w) (width1Of w))
    | 5 => .ok (.splice (resultTypeOf w) (start1Of w) (width1Of w) (start2Of w) (width2Of w))
    | 6 => .ok (.splice2 (resultTypeOf w) (start1Of w) (width1Of w) (start2Of w) (width2Of w))
    | _ => .error .reservedOpcode

/-- The one expression of R41 for a command word. -/
def packWord (op s sz rsv start1 width1 start2 width2 : Nat) : Word :=
  BitVec.ofNat 64 (op <<< 60 ||| s <<< 59 ||| sz <<< 57 ||| rsv <<< 46 |||
    start1 <<< 30 ||| width1 <<< 23 ||| start2 <<< 7 ||| width2)

/-- `Encode` of R54: the canonical word, every ignored field and `RSV` zero. -/
def encode : Instr → Word
  | .flip n => packWord 1 0 0 0 0 n 0 0
  | .subset offset length n => packWord 2 0 0 0 offset length 0 n
  | .getmsb t start width => packWord 3 t.signed.toNat t.size.code 0 start width 0 0
  | .getlsb t start width => packWord 4 t.signed.toNat t.size.code 0 start width 0 0
  | .splice t start1 width1 start2 width2 =>
    packWord 5 t.signed.toNat t.size.code 0 start1 width1 start2 width2
  | .splice2 t start1 width1 start2 width2 =>
    packWord 6 t.signed.toNat t.size.code 0 start1 width1 start2 width2

/-- The opcode `OP` of a command, R47. -/
def Instr.opcode : Instr → Nat
  | .flip _ => 1
  | .subset _ _ _ => 2
  | .getmsb _ _ _ => 3
  | .getlsb _ _ _ => 4
  | .splice _ _ _ _ _ => 5
  | .splice2 _ _ _ _ _ => 6

/-- The instruction that the decoder reads from an instruction given as `nbits` bits `w`. A command is
one 64-bit word on a port (R41, R52), so its bits are the port's and no byte order enters; bits above
`nbits` are 0, and what is longer than the port is no command (log entry 8). -/
def decodeTableWord (nbits w : Nat) : Option Instr :=
  if w % 2 ^ nbits < 2 ^ 64 then (decode (BitVec.ofNat 64 (w % 2 ^ nbits))).toOption else none

end Sys2Proof
end

