-- ==== Sys2Proof/Config.lean ====
section
/-! DEFINITION. What an implementation fixes (`NB`), and the free values: constants without a body,
about which nothing can be proved. -/

namespace Sys2Proof

/-- The open parameter of 00_scope.md R5. The model takes it as an argument, so it is data that a
state carries and no step changes (log entry 1). -/
structure Config where
  /-- `NB`, the capacity in bytes of each buffer port; R5 asks for 1 to 8191 (`configWf`). -/
  nb : Nat
  deriving DecidableEq, Repr, Inhabited

/-! The host's choice of each input port at an edge that nothing has scheduled, by the number of the
edge (70_reset_and_hazards.md R124: the host chooses them freely at every edge; log entry 3). -/

/-- Free value: `RST`. -/
opaque Config.hostRst : Nat → Bool
/-- Free value: `CMD_VALID`. -/
opaque Config.hostCmdValid : Nat → Bool
/-- Free value: `CMD`. -/
opaque Config.hostCmd : Nat → Word
/-- Free value: `OPA`. -/
opaque Config.hostOpa : Nat → Word
/-- Free value: byte `k` of `BUF1`, at edge and `k`. -/
opaque Config.hostBuf1 : Nat → Nat → Byte
/-- Free value: `LEN1`, of which the port carries the low `LW` bits. -/
opaque Config.hostLen1 : Nat → Nat
/-- Free value: byte `k` of `BUF2`, at edge and `k`. -/
opaque Config.hostBuf2 : Nat → Nat → Byte
/-- Free value: `LEN2`, of which the port carries the low `LW` bits. -/
opaque Config.hostLen2 : Nat → Nat

/-! The registers before the first reset edge: any value (10_state.md R21; log entry 6). -/

/-- Free value: `RES` before the first reset. -/
opaque Config.powerOnRes : Word
/-- Free value: `STATUS` before the first reset; it may be 5, 6 or 7 (R21). -/
opaque Config.powerOnStatus : BitVec 3
/-- Free value: `RVALID` before the first reset. -/
opaque Config.powerOnRvalid : Bool

end Sys2Proof
end

