-- ==== Sys2Proof/Machine/State.lean ====
section
/-! DEFINITION. The state of BFX as plain data: the three registers of 10_state.md R14 to R16, the
inputs sampled at the coming edge (R13), the configuration, and what the host will present later. -/

namespace Sys2Proof.Machine

/-- The bytes of one buffer port: (byte index, byte) pairs, indices strictly rising, no byte that equals
what an unlisted lane carries (20_memory.md R25, R26; log entry 5). The form is `Memory.wf`. -/
abbrev Memory := List Host.Cell

/-- The input ports as sampled at one rising edge of `CLK` (R13). -/
structure Ports where
  /-- `RST`. -/
  rst : Bool
  /-- `CMD_VALID`. -/
  cmdValid : Bool
  /-- `CMD`. -/
  cmd : Word
  /-- `OPA`. -/
  opa : Word
  /-- `BUF1`, by byte index. -/
  buf1 : Memory
  /-- `LEN1`, an `LW`-bit count. -/
  len1 : Nat
  /-- `BUF2`, by byte index. -/
  buf2 : Memory
  /-- `LEN2`, an `LW`-bit count. -/
  len2 : Nat
  deriving DecidableEq, Repr, Inhabited

/-- The state. `res`, `status` and `rvalid` are all the state the spec gives BFX (R12, R22); the other
fields are the model's: the configuration and the inputs, which the spec keeps outside the state. -/
structure State where
  /-- `RES`, R14. -/
  res : Word
  /-- `STATUS`, R15. Three bits, so that 5, 6 and 7 exist before a reset (R21). -/
  status : BitVec 3
  /-- `RVALID`, R16. -/
  rvalid : Bool
  /-- The parameter `NB` (R5; log entry 1). -/
  config : Config
  /-- The input ports at the coming edge (log entry 2). -/
  ports : Ports
  /-- What the host has decided to present at the edges after it, oldest first (log entry 3). -/
  schedule : List Ports
  /-- The number of edges taken; it selects the free port values (log entry 3). -/
  edge : Nat
  deriving DecidableEq, Repr

/-- Reasons for the machine to stop with a fault. There is none, so the type is empty: a fault of BFX is
a status code in a next state (60_exceptions.md R100, R109), and BFX takes a step at every edge (R119).
Safe: nothing raises it (log entry 16). -/
inductive Fault where
  deriving DecidableEq, Repr

/-- Reasons to refuse an instruction. -/
inductive Refusal where
  /-- An instruction that has no meaning yet. Raised by an arm of `exec` only; no arm raises it, every
  command is modelled (log entry 16). Safe. -/
  | notModelled (mnemonic : String)
  deriving DecidableEq, Repr

/-- All ports at 0: no reset, no command (log entry 2). -/
def Ports.idle : Ports :=
  { rst := false, cmdValid := false, cmd := 0, opa := 0, buf1 := [], len1 := 0, buf2 := [], len2 := 0 }

/-- The machine right after a reset edge: `RES = 0`, `STATUS = 0`, `RVALID = 0` (R20). The other fields are
DESIGN CHOICE values that no statement rests on (log entries 1, 2, 3). -/
def State.reset : State :=
  { res := 0, status := 0, rvalid := false, config := ⟨8191⟩, ports := Ports.idle, schedule := [], edge := 0 }

end Sys2Proof.Machine
end

