-- ==== Sys2Proof/Machine/Flags.lean ====
section
/-! DEFINITION. BFX has no flags and no condition codes (10_state.md R19). Its only status is the fault
code in `STATUS` (R15, 60_exceptions.md R101). -/

namespace Sys2Proof.Machine

/-- The faults of R101. -/
inductive FaultCode where
  /-- A span reaches past the end of its buffer or bit sequence, R102. -/
  | outOfRange
  /-- A width exceeds the result type or the operand port, R103. -/
  | widthOverflow
  /-- A width that must be positive is 0, R104. -/
  | zeroWidth
  /-- Reserved opcode or reserved bits not zero, R105. -/
  | illegalCommand
  deriving DecidableEq, Repr

/-- `STATUS` for a command without a fault, R101. -/
def okStatus : BitVec 3 := 0

/-- `STATUS` for each fault, R101. Codes 5, 6, 7 are never produced. -/
def FaultCode.code : FaultCode → BitVec 3
  | .outOfRange => 1
  | .widthOverflow => 2
  | .zeroWidth => 3
  | .illegalCommand => 4

end Sys2Proof.Machine
end

