-- ==== Sys2Proof/Machine/Ops.lean ====
section
/-! DEFINITION. The named operations over the buffers, the ports and the registers. Reads of a buffer:
20_memory.md R26 to R32. Delivery of a result, fault entry, reset and the idle edge: 60_exceptions.md
R100, R109 and 70_reset_and_hazards.md R119, R120. -/

namespace Sys2Proof.Machine

/-! ## Numbers made of bits -/

/-- The number below `2^n` whose bit `i`, `i < n`, is `f i`: the loops `r[i] = …` of R63 and R66 and
the sum of R32. -/
def bitsValue (f : Nat → Bool) : Nat → Nat
  | 0 => 0
  | n + 1 => (f n).toNat * 2 ^ n + bitsValue f n

/-! ## Buffer ports -/

/-- What an unlisted byte lane of a port carries (log entry 5). -/
def Memory.blank : Byte := 0

/-- Byte lane `k` of a port. -/
def Memory.read : Memory → Nat → Byte
  | [], _ => Memory.blank
  | (a, b) :: m, k => if a = k then b else Memory.read m k

/-- The port with byte lane `k` carrying `v`; the host's act, no command writes a buffer (R36). -/
def Memory.write : Memory → Nat → Byte → Memory
  | [], k, v => if v = Memory.blank then [] else [(k, v)]
  | (a, b) :: m, k, v =>
    if k < a then (if v = Memory.blank then (a, b) :: m else (k, v) :: (a, b) :: m)
    else if k = a then (if v = Memory.blank then m else (k, v) :: m)
    else (a, b) :: Memory.write m k v

/-- Bytes laid out from lane `k` on. -/
def Memory.ofBytesFrom : Nat → List Byte → Memory
  | _, [] => []
  | k, b :: bs =>
    if b = Memory.blank then Memory.ofBytesFrom (k + 1) bs else (k, b) :: Memory.ofBytesFrom (k + 1) bs

/-- A port that carries the given bytes in wire order, byte 0 first (R25). -/
def Memory.ofBytes (bs : List Byte) : Memory := Memory.ofBytesFrom 0 bs

/-- The bytes of the packed port `BUFB` of `8*nb` bits, read as a number: byte `k` is
`BUFB[8*(nb-k)-1 : 8*(nb-1-k)]`, so byte 0 is the top lane (R26). -/
def portBytes (nb port : Nat) : List Byte :=
  (List.range nb).map fun k => BitVec.ofNat 8 (port >>> (8 * (nb - 1 - k)))

/-- The buffer that a packed port value presents, R26. -/
def Memory.ofPort (nb port : Nat) : Memory := Memory.ofBytes (portBytes nb port)

/-- The canonical form: indices strictly rising, no listed byte blank. -/
def Memory.wf : Memory → Bool
  | [] => true
  | (a, b) :: m => b != Memory.blank && m.all (fun c => decide (a < c.1)) && Memory.wf m

/-- Every listed lane is one of the `nb` lanes of the port. -/
def Memory.below (m : Memory) (nb : Nat) : Bool := m.all fun c => decide (c.1 < nb)

/-! ## A buffer: the pair (`BUFB`, `LENB`) cut to its effective length -/

/-- A buffer as a command sees it: byte lanes and `ELEN` (R27). -/
structure Buffer where
  /-- The byte lanes of the port. -/
  lanes : Memory
  /-- `ELEN(B)`, in bytes. -/
  elen : Nat
  deriving DecidableEq, Repr

/-- `ELEN(B) = min(LENB, NB)`, R27. -/
def effectiveLength (c : Config) (len : Nat) : Nat := min len c.nb

/-- Buffer 1 as sampled (R26, R27). -/
def State.buffer1 (s : State) : Buffer := ⟨s.ports.buf1, effectiveLength s.config s.ports.len1⟩

/-- Buffer 2 as sampled (R26, R27). -/
def State.buffer2 (s : State) : Buffer := ⟨s.ports.buf2, effectiveLength s.config s.ports.len2⟩

/-- `LBITS(B) = 8 * ELEN(B)`, R27. -/
def Buffer.lbits (b : Buffer) : Nat := 8 * b.elen

/-- `byte(B, k)`, R26. -/
def Buffer.byte (b : Buffer) (k : Nat) : Byte := b.lanes.read k

/-- `bit(B, p)`: the buffer bit with MSB index `p`, R28. -/
def Buffer.bit (b : Buffer) (p : Nat) : Bool := (b.byte (p / 8)).getLsbD (7 - p % 8)

/-- `lsbit(B, q)`: the buffer bit with LSB index `q`, R30. -/
def Buffer.lsbit (b : Buffer) (q : Nat) : Bool := b.bit (b.lbits - 1 - q)

/-- `MemRead(B, k, n)`: bytes `k` to `k+n-1` joined, byte `k` in the high-order bits, R31. -/
def Buffer.memRead (b : Buffer) (k : Nat) : Nat → Nat
  | 0 => 0
  | n + 1 => Buffer.memRead b k n <<< 8 ||| (b.byte (k + n)).toNat

/-- `V(B)`: the whole buffer read as one big-endian number, R29. -/
def Buffer.value (b : Buffer) : Nat := b.memRead 0 b.elen

/-- `Span(B, s, n)`: the `n` bits from MSB index `s` on, the first one most significant, R32. -/
def Buffer.span (b : Buffer) (s n : Nat) : Nat := bitsValue (fun i => b.bit (s + (n - 1 - i))) n

/-- Steps 1 to 3 of the document's algorithm, R72: gather the bytes that cover the span in a wide
accumulator (R73), shift the span down, mask it. -/
def Buffer.accumulatorSpan (b : Buffer) (s n : Nat) : Nat :=
  let off := s % 8
  let m := (off + n + 7) / 8
  (b.memRead (s / 8) m >>> (8 * m - off - n)) % 2 ^ n

/-! ## The registers -/

/-- Fault entry, R109: `STATUS` takes the code, `RES` 0, `RVALID` 1, nothing else changes (R100, R106,
R110). -/
def raiseFault (f : FaultCode) (s : State) : State :=
  { s with res := 0, status := f.code, rvalid := true }

/-- A command without a fault: `RES <- v ; STATUS <- OK`, `RVALID <- 1` (R99, R119). -/
def deliver (v : Word) (s : State) : State :=
  { s with res := v, status := okStatus, rvalid := true }

/-- The end of every command: its result, or its fault (R99). A command always completes. -/
def complete (r : Except FaultCode Word) (s : State) : Host.Outcome State Fault Refusal :=
  .next (match r with
    | .ok v => deliver v s
    | .error f => raiseFault f s)

/-- The pair (`status`, `res`) that `Exec` returns, R99. -/
def statusAndResult : Except FaultCode Word → BitVec 3 × Word
  | .ok v => (okStatus, v)
  | .error f => (f.code, 0)

/-- The registers at an edge with `RST = 1`, R20, R120. -/
def resetEdge (s : State) : State := { s with res := 0, status := 0, rvalid := false }

/-- The registers at an edge with no reset and no command: `RVALID` falls, the others hold, R119. -/
def idleEdge (s : State) : State := { s with rvalid := false }

/-- BFX at power-on: the registers hold any value, and the coming edge is a reset edge (10_state.md R21, U5;
70_reset_and_hazards.md R123). Of R21's two choices this is the second, every run starts at a reset edge (log
entry 6). `NB`, the other ports at that edge and the later ones are any. -/
def State.powerOn (c : Config) (p : Ports) (schedule : List Ports) : State :=
  { res := Config.powerOnRes, status := Config.powerOnStatus, rvalid := Config.powerOnRvalid
    config := c, ports := { p with rst := true }, schedule := schedule, edge := 0 }

/-! ## The ports from edge to edge -/

/-- `LW`, the width of a length port, R5. -/
def lenWidth (c : Config) : Nat := Nat.log2 c.nb + 1

/-- The range of `NB`, R5. -/
def configWf (c : Config) : Bool := decide (1 ≤ c.nb) && decide (c.nb ≤ 8191)

/-- The ports as a host presents them at an edge that nothing has scheduled: free values (R124; log
entry 3). -/
def hostPorts (c : Config) (edge : Nat) : Ports :=
  { rst := Config.hostRst edge
    cmdValid := Config.hostCmdValid edge
    cmd := Config.hostCmd edge
    opa := Config.hostOpa edge
    buf1 := Memory.ofBytes ((List.range c.nb).map (Config.hostBuf1 edge))
    len1 := Config.hostLen1 edge % 2 ^ lenWidth c
    buf2 := Memory.ofBytes ((List.range c.nb).map (Config.hostBuf2 edge))
    len2 := Config.hostLen2 edge % 2 ^ lenWidth c }

/-- After an edge the host presents the next port values: the scheduled ones, else free ones. -/
def advancePorts (s : State) : State :=
  match s.schedule with
  | p :: ps => { s with ports := p, schedule := ps, edge := s.edge + 1 }
  | [] => { s with ports := hostPorts s.config (s.edge + 1), edge := s.edge + 1 }

/-- What every edge does after the registers are loaded. -/
def afterEdge : Host.Outcome State Fault Refusal → Host.Outcome State Fault Refusal
  | .next s => .next (advancePorts s)
  | .fault f => .fault f
  | .refused r => .refused r

/-- A port sample that the ports of R13 can carry: canonical lanes below `NB`, lengths of `LW` bits. -/
def Ports.wf (c : Config) (p : Ports) : Bool :=
  p.buf1.wf && p.buf1.below c.nb && decide (p.len1 < 2 ^ lenWidth c) &&
  p.buf2.wf && p.buf2.below c.nb && decide (p.len2 < 2 ^ lenWidth c)

end Sys2Proof.Machine
end

