-- ==== Sys2Proof/Machine/Operands.lean ====
section
/-! DEFINITION. The datapath between operands and result: bit sequences (40_endian_reversal.md R61), the
result width (30_encoding.md R45), the sign-extension multiplexer (41_msb_extraction.md R69) and the
concatenator (43_splice.md R89). -/

namespace Sys2Proof.Machine

/-- `W = Wof(SZ) = 8 << SZ`, R45. -/
def resultWidth (t : ResultType) : Nat := 8 <<< t.size.code

/-- The bit sequence of width `n` on `OPA`, reversed: bit `i` of the output is bit `n-1-i` of the input,
R63. -/
def flipBits (opa : Word) (n : Nat) : Nat := bitsValue (fun i => opa.getLsbD (n - 1 - i)) n

/-- The run of `length` bits from bit `offset` on: bit `i` of the output is bit `offset+i` of the input,
R66. -/
def subsetBits (opa : Word) (offset length : Nat) : Nat :=
  bitsValue (fun i => opa.getLsbD (offset + i)) length

/-- `Ext(u, n, W, S)`, R69. -/
def ext (u n w : Nat) (signed : Bool) : Nat :=
  if signed && u.testBit (n - 1) then u + (2 ^ w - 2 ^ n) else u

/-- `zext_64( Ext(u, n, W, S) )` for the result type `t`: the value that GETMSB, GETLSB and both splices
load into `RES` (R74, R82, R90, R94; 10_state.md R14). -/
def typedResult (t : ResultType) (u n : Nat) : Word :=
  BitVec.ofNat 64 (ext u n (resultWidth t) t.signed)

/-- `Cat(u1, u2, w2) = (u1 << w2) | u2`, R89. -/
def cat (u1 u2 w2 : Nat) : Nat := u1 <<< w2 ||| u2

/-- The signed reading of `RES` under a result width: `RES[W-1:0]` as a two's-complement number
(10_state.md R14, 00_scope.md R9). -/
def signedReading (res : Word) (w : Nat) : Int := (res.setWidth w).toInt

end Sys2Proof.Machine
end

