-- ==== Sys2Proof/Machine/BitSequence.lean ====
section
/-! DEFINITION. FLIP and SUBSET, 40_endian_reversal.md. They read `OPA` alone (R62). -/

namespace Sys2Proof.Machine

/-- The outcome of FLIP as a function of its inputs, R63. -/
def flipResult (n : Nat) (opa : Word) : Except FaultCode Word :=
  if n = 0 then .error .zeroWidth
  else if n > XW then .error .widthOverflow
  else .ok (BitVec.ofNat 64 (flipBits opa n))

/-- The outcome of SUBSET as a function of its inputs, R66. -/
def subsetResult (offset length n : Nat) (opa : Word) : Except FaultCode Word :=
  if length = 0 ∨ n = 0 then .error .zeroWidth
  else if n > XW then .error .widthOverflow
  else if offset + length > n then .error .outOfRange
  else .ok (BitVec.ofNat 64 (subsetBits opa offset length))

/-- FLIP, R63. -/
def execFlip (n : Nat) (s : State) : Host.Outcome State Fault Refusal :=
  complete (flipResult n s.ports.opa) s

/-- SUBSET, R66. -/
def execSubset (offset length n : Nat) (s : State) : Host.Outcome State Fault Refusal :=
  complete (subsetResult offset length n s.ports.opa) s

end Sys2Proof.Machine
end

