-- ==== Sys2Proof/Machine/Extract.lean ====
section
/-! DEFINITION. GETMSB, 41_msb_extraction.md, and GETLSB, 42_lsb_extraction.md. They read buffer 1 alone
(30_encoding.md R48) and share `Span` and `Ext` (R80, R87). -/

namespace Sys2Proof.Machine

/-- The outcome of GETMSB as a function of its inputs, R74. -/
def getmsbResult (t : ResultType) (start width : Nat) (b : Buffer) : Except FaultCode Word :=
  if width = 0 then .error .zeroWidth
  else if width > resultWidth t then .error .widthOverflow
  else if start + width > b.lbits then .error .outOfRange
  else .ok (typedResult t (b.span start width) width)

/-- The outcome of GETLSB as a function of its inputs, R82: the span at MSB index `L - s - n` (R81). -/
def getlsbResult (t : ResultType) (start width : Nat) (b : Buffer) : Except FaultCode Word :=
  if width = 0 then .error .zeroWidth
  else if width > resultWidth t then .error .widthOverflow
  else if start + width > b.lbits then .error .outOfRange
  else .ok (typedResult t (b.span (b.lbits - start - width) width) width)

/-- GETMSB, R74. -/
def execGetmsb (t : ResultType) (start width : Nat) (s : State) : Host.Outcome State Fault Refusal :=
  complete (getmsbResult t start width s.buffer1) s

/-- GETLSB, R82. -/
def execGetlsb (t : ResultType) (start width : Nat) (s : State) : Host.Outcome State Fault Refusal :=
  complete (getlsbResult t start width s.buffer1) s

end Sys2Proof.Machine
end

