-- ==== Sys2Proof/Machine/Splice.lean ====
section
/-! DEFINITION. SPLICE and SPLICE2, 43_splice.md: two MSB-addressed spans, joined, then extended once. -/

namespace Sys2Proof.Machine

/-- The outcome of a splice whose first span is of `b1` and whose second is of `b2`, R90 and R94. -/
def spliceResult (t : ResultType) (start1 width1 start2 width2 : Nat) (b1 b2 : Buffer) :
    Except FaultCode Word :=
  if width1 = 0 ∨ width2 = 0 then .error .zeroWidth
  else if width1 + width2 > resultWidth t then .error .widthOverflow
  else if start1 + width1 > b1.lbits ∨ start2 + width2 > b2.lbits then .error .outOfRange
  else .ok (typedResult t (cat (b1.span start1 width1) (b2.span start2 width2) width2)
    (width1 + width2))

/-- SPLICE, R90: both spans of buffer 1. -/
def execSplice (t : ResultType) (start1 width1 start2 width2 : Nat) (s : State) :
    Host.Outcome State Fault Refusal :=
  complete (spliceResult t start1 width1 start2 width2 s.buffer1 s.buffer1) s

/-- SPLICE2, R94: the first span of buffer 1, the second of buffer 2. -/
def execSplice2 (t : ResultType) (start1 width1 start2 width2 : Nat) (s : State) :
    Host.Outcome State Fault Refusal :=
  complete (spliceResult t start1 width1 start2 width2 s.buffer1 s.buffer2) s

end Sys2Proof.Machine
end

