-- ==== Sys2Proof/Machine/Dispatch.lean ====
section
/-! DEFINITION. The dispatch of 60_exceptions.md R99: one arm per command. `exec i s` is the state after
the registers are loaded at an edge that accepts the command `i` with the port values of `s`. -/

namespace Sys2Proof.Machine

def exec (i : Instr) (s : State) : Host.Outcome State Fault Refusal :=
  match i with
  | .flip n => Sys2Proof.Machine.execFlip n s
  | .subset offset length n => Sys2Proof.Machine.execSubset offset length n s
  | .getmsb t start width => Sys2Proof.Machine.execGetmsb t start width s
  | .getlsb t start width => Sys2Proof.Machine.execGetlsb t start width s
  | .splice t start1 width1 start2 width2 => Sys2Proof.Machine.execSplice t start1 width1 start2 width2 s
  | .splice2 t start1 width1 start2 width2 => Sys2Proof.Machine.execSplice2 t start1 width1 start2 width2 s

end Sys2Proof.Machine
end

