-- ==== Sys2Proof/Machine/Step.lean ====
section
/-! DEFINITION. The step of 70_reset_and_hazards.md R119. -/

namespace Sys2Proof.Machine

/-- One rising edge of `CLK`, R119: reset wins (R120), else a command is accepted, else nothing is
presented and `RVALID` falls. Then the host presents its next port values (log entry 3). -/
def step (s : State) : Host.Outcome State Fault Refusal :=
  if s.ports.rst then afterEdge (.next (resetEdge s))
  else if s.ports.cmdValid then
    match decode s.ports.cmd with
    | .ok i => afterEdge (exec i s)
    | .error _ => afterEdge (complete (.error .illegalCommand) s)
  else afterEdge (.next (idleEdge s))

/-- The state in which the host presents the given command word at the coming edge, without a reset (log
entry 4). -/
def State.withFetchWord (s : State) (nbits w : Nat) : State :=
  { s with ports := { s.ports with
      rst := false, cmdValid := true, cmd := BitVec.ofNat 64 (w % 2 ^ nbits) } }

end Sys2Proof.Machine
end

