-- ==== Sys2Proof/Machine/Assembler.lean ====
section
/-! DEFINITION. The assembler syntax of 30_encoding.md R57 and R58 and the document's own names of the
commands, R59. Lines are lists of characters (log entry 14). -/

namespace Sys2Proof.Machine

/-- A space or a tab, which may stand around a mnemonic and an operand (log entry 14). -/
def isBlank (c : Char) : Bool := c == ' ' || c == '\t'

/-- A text without the white space at its ends. -/
def trimBlanks (cs : List Char) : List Char :=
  ((cs.dropWhile isBlank).reverse.dropWhile isBlank).reverse

/-- A text cut at every `sep`. -/
def cutAt (sep : Char) : List Char → List (List Char)
  | [] => [[]]
  | c :: cs =>
    match cutAt sep cs with
    | [] => [[c]]
    | g :: gs => if c == sep then [] :: g :: gs else (c :: g) :: gs

/-- The value of a digit, at most 15. -/
def digitValue (c : Char) : Option Nat :=
  if '0' ≤ c ∧ c ≤ '9' then some (c.toNat - '0'.toNat)
  else if 'a' ≤ c ∧ c ≤ 'f' then some (c.toNat - 'a'.toNat + 10)
  else if 'A' ≤ c ∧ c ≤ 'F' then some (c.toNat - 'A'.toNat + 10)
  else none

/-- Digits read in a base, after the number read so far. -/
def readDigits (base acc : Nat) : List Char → Option Nat
  | [] => some acc
  | c :: cs =>
    match digitValue c with
    | some d => if d < base then readDigits base (base * acc + d) cs else none
    | none => none

/-- An operand: a decimal, `0x` hexadecimal or `0b` binary natural, R57. -/
def readNumber : List Char → Option Nat
  | '0' :: 'x' :: c :: cs => readDigits 16 0 (c :: cs)
  | '0' :: 'b' :: c :: cs => readDigits 2 0 (c :: cs)
  | c :: cs => readDigits 10 0 (c :: cs)
  | [] => none

/-- The operands of a line, separated by commas, R57. -/
def readOperands (cs : List Char) : Option (List Nat) :=
  (cutAt ',' cs).mapM fun o => readNumber (trimBlanks o)

/-- A type suffix, R45 and R58, without its point. -/
def readSuffix (cs : List Char) : Option ResultType :=
  match cs with
  | ['u', '8'] => some ⟨false, .bits8⟩
  | ['u', '1', '6'] => some ⟨false, .bits16⟩
  | ['u', '3', '2'] => some ⟨false, .bits32⟩
  | ['u', '6', '4'] => some ⟨false, .bits64⟩
  | ['s', '8'] => some ⟨true, .bits8⟩
  | ['s', '1', '6'] => some ⟨true, .bits16⟩
  | ['s', '3', '2'] => some ⟨true, .bits32⟩
  | ['s', '6', '4'] => some ⟨true, .bits64⟩
  | _ => none

/-- The command of a mnemonic, a suffix where there is one, and operands, R57. The suffix is required on
the buffer commands and forbidden on the others, R58. DESIGN CHOICE: R59 gives the document's names no line
form, so of them only `subset` and `splice`, which are mnemonics too, may begin a line (log entry 14). -/
def commandOf (mnemonic : List Char) (suffix : Option ResultType) (operands : List Nat) :
    Option Instr :=
  match suffix, operands with
  | none, [n] => if mnemonic = "flip".toList then some (.flip n) else none
  | none, [offset, length, n] =>
    if mnemonic = "subset".toList then some (.subset offset length n) else none
  | some t, [start, width] =>
    if mnemonic = "getmsb".toList then some (.getmsb t start width)
    else if mnemonic = "getlsb".toList then some (.getlsb t start width)
    else none
  | some t, [start1, width1, start2, width2] =>
    if mnemonic = "splice".toList then some (.splice t start1 width1 start2 width2)
    else if mnemonic = "splice2".toList then some (.splice2 t start1 width1 start2 width2)
    else none
  | _, _ => none

/-- One command line, without its comment: R57. The assembler refuses an operand that does not fit its
field, and no other, R58. -/
def assembleCommand (cs : List Char) : Option Instr :=
  let line := trimBlanks cs
  let head := line.takeWhile fun c => !isBlank c
  match readOperands (line.dropWhile fun c => !isBlank c) with
  | none => none
  | some operands =>
    let command :=
      match cutAt '.' head with
      | [mnemonic] => commandOf mnemonic none operands
      | [mnemonic, suffix] =>
        match readSuffix suffix with
        | some t => commandOf mnemonic (some t) operands
        | none => none
      | _ => none
    command.filter Instr.wf

/-- One line of a listing: at most one command and a comment from `;` on, R57. `some none` is a line
without a command. -/
def assembleLine (cs : List Char) : Option (Option Instr) :=
  let code := cs.takeWhile fun c => c != ';'
  if trimBlanks code = [] then some none
  else (assembleCommand code).map some

/-- The command word of a line of one command, R54, R57. -/
def assemble (line : String) : Option Word :=
  match assembleLine line.toList with
  | some (some i) => some (encode i)
  | _ => none

/-- A call under one of the names that the document gives the functions, R59. The buffers and `OPA` are
ports and no part of it. DESIGN CHOICE: R59 does not say how an alias is written on a line, so it is a
call with its operands and no text (log entry 14). -/
inductive DocumentCall where
  /-- `flip_endian(bits)`, the sequence of width `n` on `OPA`. -/
  | flipEndian (n : Nat)
  /-- `subset(bits, offset, length)`, the sequence of width `n` on `OPA`. -/
  | subset (n offset length : Nat)
  /-- `get_msb_bits<Result>(p, start_bit, num_bits)`. -/
  | getMsbBits (t : ResultType) (start width : Nat)
  /-- `extract_msb(buffer, start_bit, num_bits) -> Result`. -/
  | extractMsb (t : ResultType) (start width : Nat)
  /-- `extract_msb_unsigned(buf, s, w)`. -/
  | extractMsbUnsigned (start width : Nat)
  /-- `get_lsb_bits<Result>(p, start_bit, num_bits)`. -/
  | getLsbBits (t : ResultType) (start width : Nat)
  /-- `extract_lsb(buffer, start_bit, num_bits) -> Result`. -/
  | extractLsb (t : ResultType) (start width : Nat)
  /-- `splice_msb_bits<Result>(p, start1, width1, start2, width2)`. -/
  | spliceMsbBits (t : ResultType) (start1 width1 start2 width2 : Nat)
  /-- `splice(buf, s1, w1, s2, w2)`. -/
  | splice (t : ResultType) (start1 width1 start2 width2 : Nat)
  /-- `splice_msb(buffer1, start1, width1, buffer2, start2, width2) -> Result`. -/
  | spliceMsb (t : ResultType) (start1 width1 start2 width2 : Nat) (sameBuffer : Bool)
  deriving DecidableEq, Repr

/-- The command that a name of the document is an alias of, R59: an alias assembles to the `encode` of this
command, the word of its mnemonic. -/
def DocumentCall.command : DocumentCall → Instr
  | .flipEndian n => .flip n
  | .subset n offset length => .subset offset length n
  | .getMsbBits t start width => .getmsb t start width
  | .extractMsb t start width => .getmsb t start width
  | .extractMsbUnsigned start width => .getmsb ⟨false, .bits64⟩ start width
  | .getLsbBits t start width => .getlsb t start width
  | .extractLsb t start width => .getlsb t start width
  | .spliceMsbBits t start1 width1 start2 width2 => .splice t start1 width1 start2 width2
  | .splice t start1 width1 start2 width2 => .splice t start1 width1 start2 width2
  | .spliceMsb t start1 width1 start2 width2 sameBuffer =>
    if sameBuffer then .splice t start1 width1 start2 width2
    else .splice2 t start1 width1 start2 width2

end Sys2Proof.Machine
end

