-- ==== Sys2Proof/Machine/ExecFunction.lean ====
section
/-! DEFINITION. The combinational function `Exec` of 60_exceptions.md R99, apart from any state. -/

namespace Sys2Proof.Machine

/-- The outcome of a command as a function of `OPA` and the two buffers, R99. -/
def commandResult (i : Instr) (opa : Word) (b1 b2 : Buffer) : Except FaultCode Word :=
  match i with
  | .flip n => flipResult n opa
  | .subset offset length n => subsetResult offset length n opa
  | .getmsb t start width => getmsbResult t start width b1
  | .getlsb t start width => getlsbResult t start width b1
  | .splice t start1 width1 start2 width2 => spliceResult t start1 width1 start2 width2 b1 b1
  | .splice2 t start1 width1 start2 width2 => spliceResult t start1 width1 start2 width2 b1 b2

/-- `Exec(CMD, OPA, buffer 1, buffer 2)`: the pair (`status`, `res`), R99. -/
def execFunction (cmd opa : Word) (b1 b2 : Buffer) : BitVec 3 × Word :=
  statusAndResult (match decode cmd with
    | .ok i => commandResult i opa b1 b2
    | .error _ => .error .illegalCommand)

/-- The three registers apart from the rest of the state (10_state.md R22). -/
structure Registers where
  /-- `RES`. -/
  res : Word
  /-- `STATUS`. -/
  status : BitVec 3
  /-- `RVALID`. -/
  rvalid : Bool
  deriving DecidableEq, Repr

/-- The registers of a state. -/
def State.registers (s : State) : Registers := ⟨s.res, s.status, s.rvalid⟩

/-- A buffer as a port sample presents it, R26, R27. -/
def Ports.buffer1 (c : Config) (p : Ports) : Buffer := ⟨p.buf1, effectiveLength c p.len1⟩

/-- As `Ports.buffer1`, for buffer 2. -/
def Ports.buffer2 (c : Config) (p : Ports) : Buffer := ⟨p.buf2, effectiveLength c p.len2⟩

/-- The step of 70_reset_and_hazards.md R119 on the registers alone, for one port sample: a second
writing of it, against which the machine's runs are stated. -/
def edgeRegisters (c : Config) (r : Registers) (p : Ports) : Registers :=
  if p.rst then ⟨0, 0, false⟩
  else if p.cmdValid then
    let (status, res) := execFunction p.cmd p.opa (p.buffer1 c) (p.buffer2 c)
    ⟨res, status, true⟩
  else { r with rvalid := false }

end Sys2Proof.Machine
end

