-- ==== Sys2Proof/Safety.lean ====
section
/-! DEFINITION. What counts as a legal state and a safe run. -/

namespace Sys2Proof.Machine

/-- The registers as every edge leaves them, from a reset on: `STATUS` is 0 to 4 (10_state.md R15, R23)
and a fault comes with `RES = 0` (60_exceptions.md R110). -/
def State.registersLegal (s : State) : Bool :=
  decide (s.status.toNat ≤ 4) && (s.status == 0 || s.res == 0)

/-- `NB` and every port value, presented or scheduled, is one the ports can carry (00_scope.md R5,
10_state.md R13). -/
def State.inputsLegal (s : State) : Bool :=
  configWf s.config && s.ports.wf s.config && s.schedule.all (Ports.wf s.config)

/-- The model's invariant. -/
def State.inv (s : State) : Bool := s.registersLegal && s.inputsLegal

/-- No fault is reported in this cycle: the record that R111 leaves to the model. -/
def State.noFaultReported (s : State) : Bool := !s.rvalid || s.status == okStatus

/-- A run of `k` edges in which no command faulted (R111). -/
def faultFree : Nat → State → Bool
  | 0, _ => true
  | k + 1, s =>
    match step s with
    | .next t => t.noFaultReported && faultFree k t
    | .fault _ => false
    | .refused _ => false

end Sys2Proof.Machine
end

