-- ==== Sys2Proof/Certificates/Slice0/Obligations.lean ====
section
/-! DEFINITION. The statements for the provers. Each docstring names the rules of spec/ that the statement
formalises, or the log entry where it is the model's choice. -/

open Sys2Proof Sys2Proof.Machine

/-! ## Encoding -/

/-- R54, R42: decoding the canonical word of a well-formed command gives the command back, for every value
that every operand can take. -/
def Obligations.DecodeOfEncodeGivesTheCommand : Prop :=
  ∀ i : Instr, WellFormed i → decode (encode i) = .ok i

/-- R48, R54: the canonical word of the command that a word selects is that word with its ignored fields
cleared. -/
def Obligations.EncodeOfDecodeClearsIgnoredFields : Prop :=
  ∀ (w : Word) (i : Instr), decode w = .ok i →
    encode i = match i with
      | .flip _ => w &&& 0xF1FFC0003F800000#64
      | .subset _ _ _ => w &&& 0xF1FFFFFFFF80007F#64
      | .getmsb _ _ _ => w &&& 0xFFFFFFFFFF800000#64
      | .getlsb _ _ _ => w &&& 0xFFFFFFFFFF800000#64
      | .splice _ _ _ _ _ => w
      | .splice2 _ _ _ _ _ => w

/-- R48, R54: two words that differ only in the ignored fields of the command that one of them selects
select the same command. -/
def Obligations.IgnoredFieldsDoNotChangeTheCommand : Prop :=
  ∀ (w v : Word) (i : Instr), decode w = .ok i →
    (match i with
      | .flip _ => (w ^^^ v) &&& 0xF1FFC0003F800000#64 = 0
      | .subset _ _ _ => (w ^^^ v) &&& 0xF1FFFFFFFF80007F#64 = 0
      | .getmsb _ _ _ => (w ^^^ v) &&& 0xFFFFFFFFFF800000#64 = 0
      | .getlsb _ _ _ => (w ^^^ v) &&& 0xFFFFFFFFFF800000#64 = 0
      | .splice _ _ _ _ _ => w = v
      | .splice2 _ _ _ _ _ => w = v) →
    decode v = .ok i

/-- R54: a word selects the row of a command exactly when its bits under the table's mask are the row's
match value. -/
def Obligations.RowMaskSelectsTheCommand : Prop :=
  ∀ w : Word,
    ((w &&& 0xF1FFC00000000000#64 = 0x1000000000000000#64) ↔ ∃ n, decode w = .ok (.flip n)) ∧
    ((w &&& 0xF1FFC00000000000#64 = 0x2000000000000000#64) ↔
      ∃ offset length n, decode w = .ok (.subset offset length n)) ∧
    ((w &&& 0xF1FFC00000000000#64 = 0x3000000000000000#64) ↔
      ∃ t start width, decode w = .ok (.getmsb t start width)) ∧
    ((w &&& 0xF1FFC00000000000#64 = 0x4000000000000000#64) ↔
      ∃ t start width, decode w = .ok (.getlsb t start width)) ∧
    ((w &&& 0xF1FFC00000000000#64 = 0x5000000000000000#64) ↔
      ∃ t start1 width1 start2 width2, decode w = .ok (.splice t start1 width1 start2 width2)) ∧
    ((w &&& 0xF1FFC00000000000#64 = 0x6000000000000000#64) ↔
      ∃ t start1 width1 start2 width2, decode w = .ok (.splice2 t start1 width1 start2 width2))

/-- R49, R50, R105: an accepted word with a reserved bit set, or with opcode 0 or 7 and above, and no other
word, raises `IllegalCommand`: `STATUS` is 4, `RES` 0, `RVALID` 1. -/
def Obligations.ReservedWordsRaiseIllegalCommand : Prop :=
  ∀ s : State, s.ports.rst = false → s.ports.cmdValid = true →
    ∃ t, step s = .next t ∧
      ((s.ports.cmd &&& 0x01FFC00000000000#64 ≠ 0 ∨ s.ports.cmd >>> 60 = 0 ∨ 7 ≤ (s.ports.cmd >>> 60).toNat) ↔
        t.status = 4) ∧
      (t.status = 4 → t.res = 0 ∧ t.rvalid = true)

/-- R55: words written out from the encoding decode to the commands they stand for. -/
def Obligations.WorkedEncodingsDecode : Prop :=
  decode 0x3000000004000000 = .ok (.getmsb ⟨false, .bits8⟩ 0 8) ∧
  decode 0x3000000604000000 = .ok (.getmsb ⟨false, .bits8⟩ 24 8) ∧
  decode 0x4000000604000000 = .ok (.getlsb ⟨false, .bits8⟩ 24 8) ∧
  decode 0x3800000002800000 = .ok (.getmsb ⟨true, .bits8⟩ 0 5) ∧
  decode 0x3E000001E0000000 = .ok (.getmsb ⟨true, .bits64⟩ 7 64) ∧
  decode 0x5200000204000C08 = .ok (.splice ⟨false, .bits16⟩ 8 8 24 8) ∧
  decode 0x6A00000102000087 = .ok (.splice2 ⟨true, .bits16⟩ 4 4 1 7) ∧
  decode 0x1000000004000000 = .ok (.flip 8) ∧
  decode 0x2000000104000010 = .ok (.subset 4 8 16)

/-- R58: what the assembler accepts fits the command word. -/
def Obligations.AssembledCommandsFitTheWord : Prop :=
  ∀ (line : List Char) (i : Instr), assembleLine line = some (some i) →
    WellFormed i ∧ decode (encode i) = .ok i

/-! ## The step -/

/-- R99, R119: an edge that accepts a word which decodes to a command runs that command: the step is the
command's meaning, and then the host presents its next port values (`advancePorts`, log entry 3). What the
decoder gives is well formed. -/
def Obligations.StepRunsTheDecodedCommand : Prop :=
  ∀ (s : State) (i : Instr), s.ports.rst = false → s.ports.cmdValid = true →
    decode s.ports.cmd = .ok i →
    WellFormed i ∧ ∃ t, exec i s = .next t ∧ step s = .next (advancePorts t)

/-- R119: the registers after an edge, for a reset, an accepted command and neither. `execFunction` is `Exec`
of R99. -/
def Obligations.StepFollowsTheClockedRule : Prop :=
  ∀ s : State, ∃ t, step s = .next t ∧
    (s.ports.rst = true → t.res = 0 ∧ t.status = 0 ∧ t.rvalid = false) ∧
    (s.ports.rst = false → s.ports.cmdValid = true →
      (t.status, t.res) = execFunction s.ports.cmd s.ports.opa s.buffer1 s.buffer2 ∧ t.rvalid = true) ∧
    (s.ports.rst = false → s.ports.cmdValid = false →
      t.rvalid = false ∧ t.res = s.res ∧ t.status = s.status)

/-- R20: the registers after a reset edge, from every state (one before the first reset among them) and
whatever command is presented at that edge; and the registers of the reset state. -/
def Obligations.ResetEdgeClearsTheRegisters : Prop :=
  (∀ s : State, s.ports.rst = true →
    ∃ t, step s = .next t ∧ t.res = 0 ∧ t.status = 0 ∧ t.rvalid = false) ∧
  State.reset.res = 0 ∧ State.reset.status = 0 ∧ State.reset.rvalid = false

/-- R16: `RVALID` is 1 after exactly the edges that accept a command; where it is 0 without a reset, `RES`
and `STATUS` hold. -/
def Obligations.RvalidMarksAcceptedCommands : Prop :=
  ∀ s t : State, step s = .next t →
    (t.rvalid = true ↔ s.ports.rst = false ∧ s.ports.cmdValid = true) ∧
    (t.rvalid = false → s.ports.rst = false → t.res = s.res ∧ t.status = s.status)

/-- R99, R119: BFX takes a step at every edge; no state and no input stops it. -/
def Obligations.EveryEdgeGivesANextState : Prop :=
  ∀ s : State, ∃ t, step s = .next t

/-- The model's choice, log entry 3: after an edge the host presents the next scheduled sample, and where
none is scheduled its free values; nothing else about the inputs changes. -/
def Obligations.EdgeTakesTheNextScheduledPorts : Prop :=
  ∀ s t : State, step s = .next t →
    t.config = s.config ∧ t.schedule = s.schedule.tail ∧ t.edge = s.edge + 1 ∧
    t.ports = (match s.schedule with
      | p :: _ => p
      | [] => hostPorts s.config (s.edge + 1))

/-- R24: the values that an accepted command writes are a function of that edge's inputs alone, not of the
earlier registers. -/
def Obligations.ResultsDependOnTheSampledInputsAlone : Prop :=
  ∀ s s' : State, s.config = s'.config → s.ports = s'.ports →
    s.ports.rst = false → s.ports.cmdValid = true →
    ∃ t t', step s = .next t ∧ step s' = .next t' ∧ t.res = t'.res ∧ t.status = t'.status

/-- R111, R122: whatever happens at one edge (a command, a fault, a reset, nothing), a command accepted at
the next writes the same `RES` and `STATUS`. That the second edge samples the head of `schedule` is the model's
choice, log entry 3. -/
def Obligations.EarlierEdgeDoesNotInfluenceTheNextCommand : Prop :=
  ∀ (s s' : State) (p : Ports) (rest rest' : List Ports), s.config = s'.config →
    s.schedule = p :: rest → s'.schedule = p :: rest' → p.rst = false → p.cmdValid = true →
    ∃ t t', core.run 2 s = .next t ∧ core.run 2 s' = .next t' ∧ t.res = t'.res ∧ t.status = t'.status

/-- R127, R16: the registers hold a result through any number of edges that present no command and no reset.
That the samples of the edges are `ports` and then `schedule` is the model's choice, log entry 3. -/
def Obligations.ResultHoldsUntilTheNextCommand : Prop :=
  ∀ (k : Nat) (s : State), k ≤ s.schedule.length + 1 →
    (∀ p ∈ (s.ports :: s.schedule).take k, p.rst = false ∧ p.cmdValid = false) →
    ∃ t, core.run k s = .next t ∧ t.res = s.res ∧ t.status = s.status ∧ (0 < k → t.rvalid = false)

/-- R119, R38 (a), (b): a run over any sequence of scheduled samples leaves the registers that the rule of
R119, applied to the samples one after the other, leaves. That the samples are `ports` and then `schedule` is
the model's choice, log entry 3. -/
def Obligations.RunFoldsTheClockedRuleOverItsSamples : Prop :=
  ∀ (k : Nat) (s : State), k ≤ s.schedule.length + 1 →
    ∃ t, core.run k s = .next t ∧
      t.registers = ((s.ports :: s.schedule).take k).foldl (edgeRegisters s.config) s.registers

/-! ## Invariants -/

/-- The invariant of Safety.lean is kept by every step. Of the spec are its clauses on the registers (R15, R23:
`STATUS` is 0 to 4; R110: no result beside a fault) and the range of `NB` and of `LW` (R5). The model's choices
are that `NB` stands in the state (log entry 1), that a step draws its inputs from `schedule` and then from free
host values (log entry 3), that byte lanes have one canonical form (log entry 5), and that the widths of the
ports are conditions and no types (log entry 15). -/
def Obligations.EveryStepKeepsTheInvariant : Prop :=
  ∀ s t : State, s.inv = true → step s = .next t → t.inv = true

/-- The invariant holds in the reset state: the registers by R20, the inputs by the model's choice (log
entries 1, 2, 3). -/
def Obligations.InvariantHoldsAtReset : Prop := State.reset.inv = true

/-- R15, R101, R110: from any state, legal or not, an edge that resets or accepts a command leaves a
`STATUS` of 0 to 4, and leaves `RES = 0` beside a fault. -/
def Obligations.WrittenStatusIsLegalAndFaultsCarryNoResult : Prop :=
  ∀ s t : State, step s = .next t → (s.ports.rst = true ∨ s.ports.cmdValid = true) →
    t.status.toNat ≤ 4 ∧ (t.status ≠ 0 → t.res = 0)

/-- R14: `RES` is zero above the width of the result type, or of the output sequence, whatever the
operands. -/
def Obligations.ResIsZeroAboveTheResultWidth : Prop :=
  ∀ (i : Instr) (s t : State), exec i s = .next t →
    match i with
    | .flip n => t.res.toNat < 2 ^ n
    | .subset _ length _ => t.res.toNat < 2 ^ length
    | .getmsb ty _ _ => t.res.toNat < 2 ^ resultWidth ty
    | .getlsb ty _ _ => t.res.toNat < 2 ^ resultWidth ty
    | .splice ty _ _ _ _ => t.res.toNat < 2 ^ resultWidth ty
    | .splice2 ty _ _ _ _ => t.res.toNat < 2 ^ resultWidth ty

/-- R36: a command changes no byte of a buffer and nothing but the three registers, and the same command on
the same port values gives the same `RES` and `STATUS` again. -/
def Obligations.CommandsWriteNoBufferAndRepeat : Prop :=
  ∀ (i : Instr) (s t : State), exec i s = .next t →
    (∀ k, t.ports.buf1.read k = s.ports.buf1.read k ∧ t.ports.buf2.read k = s.ports.buf2.read k) ∧
    t.ports = s.ports ∧ t.config = s.config ∧ t.schedule = s.schedule ∧ t.edge = s.edge ∧
    t.rvalid = true ∧ exec i t = .next t

/-! ## The buffers and their addressing -/

/-- R29: the buffer as one number, byte 0 most significant; MSB index `p` is its bit `LBITS - 1 - p`; and at
full length it is the packed port read as a number. -/
def Obligations.BufferIsOneBigEndianNumber : Prop :=
  (∀ b : Buffer,
    b.value = ∑ k ∈ Finset.range b.elen, (b.byte k).toNat * 2 ^ (8 * (b.elen - 1 - k)) ∧
    b.value < 2 ^ b.lbits ∧ ∀ p < b.lbits, b.bit p = b.value.testBit (b.lbits - 1 - p)) ∧
  ∀ nb port : Nat, port < 2 ^ (8 * nb) → Buffer.value ⟨Memory.ofPort nb port, nb⟩ = port

/-- R30: LSB index `q` is the bit of weight `2^q` of the buffer; indices 0 to 7 are the last byte, and the
last index is the most significant bit of byte 0. -/
def Obligations.LsbIndexIsTheWeightInTheBuffer : Prop :=
  ∀ (b : Buffer) (q : Nat), q < b.lbits →
    b.lsbit q = b.value.testBit q ∧ b.lsbit q = b.bit (b.lbits - 1 - q) ∧
    (q < 8 → b.lsbit q = (b.byte (b.elen - 1)).getLsbD q) ∧
    b.lsbit (b.lbits - 1) = (b.byte 0).getLsbD 7

/-- R32: the two forms of `Span`, and its first and last bit. -/
def Obligations.SpanHasTwoEqualForms : Prop :=
  ∀ (b : Buffer) (s n : Nat), 1 ≤ n → n ≤ 64 → s + n ≤ b.lbits →
    b.span s n = ∑ j ∈ Finset.range n, (b.bit (s + j)).toNat * 2 ^ (n - 1 - j) ∧
    b.span s n = (b.value >>> (b.lbits - s - n)) % 2 ^ n ∧
    b.span s n < 2 ^ n ∧ (b.span s n).testBit (n - 1) = b.bit s ∧
    (b.span s n).testBit 0 = b.bit (s + n - 1)

/-- R72, R73: the document's accumulator algorithm computes `Span`, and its accumulator fits 72 bits. -/
def Obligations.AccumulatorAlgorithmComputesSpan : Prop :=
  ∀ (b : Buffer) (s n : Nat), 1 ≤ n → n ≤ 64 → s + n ≤ b.lbits →
    b.accumulatorSpan s n = b.span s n ∧
    (s % 8 + n + 7) / 8 ≤ 9 ∧ b.memRead (s / 8) ((s % 8 + n + 7) / 8) < 2 ^ 72

/-- R34: a span depends on the bytes it touches and on no other; how many they are; and the document's input
condition. -/
def Obligations.SpanDependsOnTheTouchedBytesOnly : Prop :=
  ∀ (b c : Buffer) (s n : Nat), 1 ≤ n → n ≤ 64 →
    ((∀ k, s / 8 ≤ k → k ≤ (s + n - 1) / 8 → b.byte k = c.byte k) → b.span s n = c.span s n) ∧
    (s + n - 1) / 8 + 1 - s / 8 = (s % 8 + n + 7) / 8 ∧
    1 ≤ (s % 8 + n + 7) / 8 ∧ (s % 8 + n + 7) / 8 ≤ 9 ∧
    ((s % 8 + n + 7) / 8 = 9 ↔ 64 < s % 8 + n) ∧
    ((s + n + 7) / 8 ≤ b.elen ↔ s + n ≤ b.lbits)

/-- R76: bytes, concatenation, straddling equivalence and the whole buffer, for MSB-addressed spans. -/
def Obligations.LawsOfMsbSpans : Prop :=
  (∀ (b : Buffer) (k : Nat), k < b.elen → b.span (8 * k) 8 = (b.byte k).toNat) ∧
  (∀ (b : Buffer) (s n1 n2 : Nat), 1 ≤ n1 → 1 ≤ n2 → n1 + n2 ≤ 64 → s + n1 + n2 ≤ b.lbits →
    b.span s (n1 + n2) = b.span s n1 <<< n2 ||| b.span (s + n1) n2) ∧
  (∀ (x y : Buffer) (sx sy n : Nat), 1 ≤ n → n ≤ 64 → sx + n ≤ x.lbits → sy + n ≤ y.lbits →
    (∀ j < n, x.bit (sx + j) = y.bit (sy + j)) → x.span sx n = y.span sy n) ∧
  (∀ b : Buffer, 1 ≤ b.lbits → b.lbits ≤ 64 → b.span 0 b.lbits = b.value)

/-- R70: the laws of the sign-extension multiplexer. -/
def Obligations.LawsOfSignExtension : Prop :=
  ∀ (u n : Nat) (t : ResultType), 1 ≤ n → n ≤ resultWidth t → u < 2 ^ n →
    let w := resultWidth t
    let r := ext u n w t.signed
    r < 2 ^ w ∧ r % 2 ^ n = u ∧
    (t.signed = false → r = u) ∧
    (t.signed = true →
      (BitVec.ofNat w r).toInt = (u : Int) - 2 ^ n * ((u.testBit (n - 1)).toNat : Int) ∧
      -(2 ^ (n - 1) : Int) ≤ (BitVec.ofNat w r).toInt ∧
      (BitVec.ofNat w r).toInt ≤ 2 ^ (n - 1) - 1) ∧
    (n = w → r = u) ∧
    (n = 1 → t.signed = true → r = if u = 1 then 2 ^ w - 1 else 0) ∧
    (∀ t2 : ResultType, t2.signed = t.signed → w < resultWidth t2 →
      (t.signed = false → ext u n (resultWidth t2) t2.signed = r) ∧
      (t.signed = true →
        (BitVec.ofNat (resultWidth t2) (ext u n (resultWidth t2) t2.signed)).toInt =
          (BitVec.ofNat w r).toInt))

/-! ## What each command writes

Each conclusion is the whole next state: every field not named in it is unchanged. -/

/-- R63, R61: FLIP within its preconditions writes the reversed sequence and zeros above it. -/
def Obligations.FlipReversesTheSequence : Prop :=
  ∀ (n : Nat) (s : State), 1 ≤ n → n ≤ 64 →
    ∃ r : Word, exec (.flip n) s = .next { s with res := r, status := 0, rvalid := true } ∧
      ∀ i, r.getLsbD i = (decide (i < n) && s.ports.opa.getLsbD (n - 1 - i))

/-- R66: SUBSET within its preconditions writes `(OPA >> offset) mod 2^length`, bit for bit the run of the
input from `offset` on. -/
def Obligations.SubsetTakesTheRun : Prop :=
  ∀ (offset length n : Nat) (s : State), 1 ≤ length → n ≤ 64 → offset + length ≤ n →
    ∃ r : Word, exec (.subset offset length n) s = .next { s with res := r, status := 0, rvalid := true } ∧
      r.toNat = s.ports.opa.toNat / 2 ^ offset % 2 ^ length ∧
      ∀ i, r.getLsbD i = (decide (i < length) && s.ports.opa.getLsbD (offset + i))

/-- R74, R28, R27, R69, R14: GETMSB within its preconditions writes the bits of its span, the sign or zeros
up to the result width, and zeros above it. -/
def Obligations.GetmsbWritesTheExtendedSpan : Prop :=
  ∀ (t : ResultType) (start width : Nat) (s : State), 1 ≤ width → width ≤ resultWidth t →
    start + width ≤ 8 * min s.ports.len1 s.config.nb →
    ∃ r : Word, exec (.getmsb t start width) s = .next { s with res := r, status := 0, rvalid := true } ∧
      ∀ i, r.getLsbD i =
        if i < width then
          (s.ports.buf1.read ((start + width - 1 - i) / 8)).getLsbD (7 - (start + width - 1 - i) % 8)
        else decide (i < resultWidth t) && t.signed &&
          (s.ports.buf1.read (start / 8)).getLsbD (7 - start % 8)

/-- R84, R82, R69, R14: GETLSB within its preconditions writes `n` bits of the buffer's number from weight
`2^s` on, bit `j` of the result being the buffer bit with LSB index `s + j`, and the sign or zeros up to the
result width. -/
def Obligations.GetlsbWritesTheExtendedSpan : Prop :=
  ∀ (t : ResultType) (start width : Nat) (s : State), 1 ≤ width → width ≤ resultWidth t →
    start + width ≤ 8 * min s.ports.len1 s.config.nb →
    ∃ r : Word, exec (.getlsb t start width) s = .next { s with res := r, status := 0, rvalid := true } ∧
      r.toNat % 2 ^ width = (s.buffer1.value >>> start) % 2 ^ width ∧
      ∀ i, r.getLsbD i =
        if i < width then s.buffer1.lsbit (start + i)
        else decide (i < resultWidth t) && t.signed && s.buffer1.lsbit (start + width - 1)

/-- R90, R28, R89, R69, R14: SPLICE within its preconditions writes the second span of buffer 1 in the low
bits, the first above it, and extends the whole from the first span's first bit. -/
def Obligations.SpliceWritesTheJoinedSpans : Prop :=
  ∀ (t : ResultType) (start1 width1 start2 width2 : Nat) (s : State), 1 ≤ width1 → 1 ≤ width2 →
    width1 + width2 ≤ resultWidth t → start1 + width1 ≤ 8 * min s.ports.len1 s.config.nb →
    start2 + width2 ≤ 8 * min s.ports.len1 s.config.nb →
    ∃ r : Word, exec (.splice t start1 width1 start2 width2) s =
        .next { s with res := r, status := 0, rvalid := true } ∧
      ∀ i, r.getLsbD i =
        if i < width2 then
          (s.ports.buf1.read ((start2 + width2 - 1 - i) / 8)).getLsbD (7 - (start2 + width2 - 1 - i) % 8)
        else if i < width1 + width2 then
          (s.ports.buf1.read ((start1 + width1 + width2 - 1 - i) / 8)).getLsbD
            (7 - (start1 + width1 + width2 - 1 - i) % 8)
        else decide (i < resultWidth t) && t.signed &&
          (s.ports.buf1.read (start1 / 8)).getLsbD (7 - start1 % 8)

/-- R94, R28, R89, R69, R14: SPLICE2, as SPLICE with the second span of buffer 2, checked against the
length of buffer 2. -/
def Obligations.Splice2WritesTheJoinedSpansOfTwoBuffers : Prop :=
  ∀ (t : ResultType) (start1 width1 start2 width2 : Nat) (s : State), 1 ≤ width1 → 1 ≤ width2 →
    width1 + width2 ≤ resultWidth t → start1 + width1 ≤ 8 * min s.ports.len1 s.config.nb →
    start2 + width2 ≤ 8 * min s.ports.len2 s.config.nb →
    ∃ r : Word, exec (.splice2 t start1 width1 start2 width2) s =
        .next { s with res := r, status := 0, rvalid := true } ∧
      ∀ i, r.getLsbD i =
        if i < width2 then
          (s.ports.buf2.read ((start2 + width2 - 1 - i) / 8)).getLsbD (7 - (start2 + width2 - 1 - i) % 8)
        else if i < width1 + width2 then
          (s.ports.buf1.read ((start1 + width1 + width2 - 1 - i) / 8)).getLsbD
            (7 - (start1 + width1 + width2 - 1 - i) % 8)
        else decide (i < resultWidth t) && t.signed &&
          (s.ports.buf1.read (start1 / 8)).getLsbD (7 - start1 % 8)

/-! ## Faults -/

/-- R104: which commands raise `ZeroWidth`, and that its entry is the whole effect (R109). -/
def Obligations.ZeroWidthsFault : Prop :=
  ∀ s : State,
    (∀ n, n = 0 → exec (.flip n) s = .next { s with res := 0, status := 3, rvalid := true }) ∧
    (∀ t start width, width = 0 →
      exec (.getmsb t start width) s = .next { s with res := 0, status := 3, rvalid := true } ∧
      exec (.getlsb t start width) s = .next { s with res := 0, status := 3, rvalid := true }) ∧
    (∀ offset length n, length = 0 ∨ n = 0 →
      exec (.subset offset length n) s = .next { s with res := 0, status := 3, rvalid := true }) ∧
    (∀ t start1 width1 start2 width2, width1 = 0 ∨ width2 = 0 →
      exec (.splice t start1 width1 start2 width2) s =
        .next { s with res := 0, status := 3, rvalid := true } ∧
      exec (.splice2 t start1 width1 start2 width2) s =
        .next { s with res := 0, status := 3, rvalid := true })

/-- R103: which commands raise `WidthOverflow`, where no width is zero (R108), and that its entry is the
whole effect (R109). -/
def Obligations.WidthsAboveTheCapacityFault : Prop :=
  ∀ s : State,
    (∀ n, 64 < n → exec (.flip n) s = .next { s with res := 0, status := 2, rvalid := true }) ∧
    (∀ offset length n, 1 ≤ length → 64 < n →
      exec (.subset offset length n) s = .next { s with res := 0, status := 2, rvalid := true }) ∧
    (∀ t start width, resultWidth t < width →
      exec (.getmsb t start width) s = .next { s with res := 0, status := 2, rvalid := true } ∧
      exec (.getlsb t start width) s = .next { s with res := 0, status := 2, rvalid := true }) ∧
    (∀ t start1 width1 start2 width2, 1 ≤ width1 → 1 ≤ width2 → resultWidth t < width1 + width2 →
      exec (.splice t start1 width1 start2 width2) s =
        .next { s with res := 0, status := 2, rvalid := true } ∧
      exec (.splice2 t start1 width1 start2 width2) s =
        .next { s with res := 0, status := 2, rvalid := true })

/-- R102: which commands raise `OutOfRange`, where no width is zero or above the capacity (R108), that FLIP
never does, and that its entry is the whole effect (R109). -/
def Obligations.SpansPastTheEndFault : Prop :=
  ∀ s : State,
    (∀ t start width, 1 ≤ width → width ≤ resultWidth t →
      8 * min s.ports.len1 s.config.nb < start + width →
      exec (.getmsb t start width) s = .next { s with res := 0, status := 1, rvalid := true } ∧
      exec (.getlsb t start width) s = .next { s with res := 0, status := 1, rvalid := true }) ∧
    (∀ t start1 width1 start2 width2, 1 ≤ width1 → 1 ≤ width2 → width1 + width2 ≤ resultWidth t →
      (8 * min s.ports.len1 s.config.nb < start1 + width1 ∨
        8 * min s.ports.len1 s.config.nb < start2 + width2) →
      exec (.splice t start1 width1 start2 width2) s =
        .next { s with res := 0, status := 1, rvalid := true }) ∧
    (∀ t start1 width1 start2 width2, 1 ≤ width1 → 1 ≤ width2 → width1 + width2 ≤ resultWidth t →
      (8 * min s.ports.len1 s.config.nb < start1 + width1 ∨
        8 * min s.ports.len2 s.config.nb < start2 + width2) →
      exec (.splice2 t start1 width1 start2 width2) s =
        .next { s with res := 0, status := 1, rvalid := true }) ∧
    (∀ offset length n, 1 ≤ length → 1 ≤ n → n ≤ 64 → n < offset + length →
      exec (.subset offset length n) s = .next { s with res := 0, status := 1, rvalid := true }) ∧
    (∀ n t, exec (.flip n) s = .next t → t.status ≠ 1)

/-- R107, R108: where several fault conditions of a command hold, the highest code is reported; where none
holds, none. -/
def Obligations.HighestFaultCodeWins : Prop :=
  ∀ (i : Instr) (s t : State), exec i s = .next t →
    let l1 := 8 * min s.ports.len1 s.config.nb
    let l2 := 8 * min s.ports.len2 s.config.nb
    t.status.toNat = match i with
      | .flip n => max (if n = 0 then 3 else 0) (if 64 < n then 2 else 0)
      | .subset offset length n =>
        max (if length = 0 ∨ n = 0 then 3 else 0)
          (max (if 64 < n then 2 else 0) (if n < offset + length then 1 else 0))
      | .getmsb ty start width =>
        max (if width = 0 then 3 else 0)
          (max (if resultWidth ty < width then 2 else 0) (if l1 < start + width then 1 else 0))
      | .getlsb ty start width =>
        max (if width = 0 then 3 else 0)
          (max (if resultWidth ty < width then 2 else 0) (if l1 < start + width then 1 else 0))
      | .splice ty start1 width1 start2 width2 =>
        max (if width1 = 0 ∨ width2 = 0 then 3 else 0)
          (max (if resultWidth ty < width1 + width2 then 2 else 0)
            (if l1 < start1 + width1 ∨ l1 < start2 + width2 then 1 else 0))
      | .splice2 ty start1 width1 start2 width2 =>
        max (if width1 = 0 ∨ width2 = 0 then 3 else 0)
          (max (if resultWidth ty < width1 + width2 then 2 else 0)
            (if l1 < start1 + width1 ∨ l2 < start2 + width2 then 1 else 0))

/-! ## What a command does not depend on -/

/-- R48: no result depends on a port that the command ignores, a buffer's length port included. -/
def Obligations.IgnoredPortsDoNotMatter : Prop :=
  ∀ (i : Instr) (s : State) (p : Ports),
    (match i with
      | .flip _ => p.opa = s.ports.opa
      | .subset _ _ _ => p.opa = s.ports.opa
      | .getmsb _ _ _ => p.buf1 = s.ports.buf1 ∧ p.len1 = s.ports.len1
      | .getlsb _ _ _ => p.buf1 = s.ports.buf1 ∧ p.len1 = s.ports.len1
      | .splice _ _ _ _ _ => p.buf1 = s.ports.buf1 ∧ p.len1 = s.ports.len1
      | .splice2 _ _ _ _ _ => p.buf1 = s.ports.buf1 ∧ p.len1 = s.ports.len1 ∧
          p.buf2 = s.ports.buf2 ∧ p.len2 = s.ports.len2) →
    ∃ (r : Word) (c : BitVec 3), exec i s = .next { s with res := r, status := c, rvalid := true } ∧
      exec i { s with ports := p } =
        .next { s with ports := p, res := r, status := c, rvalid := true }

/-- R26, R27: no result of any command depends on a byte lane at or past the effective length, on `NB`, or on
a length port, other than through the effective length. -/
def Obligations.BytesPastTheEffectiveLengthDoNotMatter : Prop :=
  ∀ (i : Instr) (s s' : State), s'.ports.opa = s.ports.opa →
    min s'.ports.len1 s'.config.nb = min s.ports.len1 s.config.nb →
    min s'.ports.len2 s'.config.nb = min s.ports.len2 s.config.nb →
    (∀ k < min s.ports.len1 s.config.nb, s'.ports.buf1.read k = s.ports.buf1.read k) →
    (∀ k < min s.ports.len2 s.config.nb, s'.ports.buf2.read k = s.ports.buf2.read k) →
    ∃ (r : Word) (c : BitVec 3), exec i s = .next { s with res := r, status := c, rvalid := true } ∧
      exec i s' = .next { s' with res := r, status := c, rvalid := true }

/-- R61: no result of FLIP or SUBSET depends on a bit of `OPA` outside the sequence. -/
def Obligations.OperandBitsOutsideTheSequenceDoNotMatter : Prop :=
  ∀ (s : State) (p : Ports) (n : Nat), p.opa.toNat % 2 ^ n = s.ports.opa.toNat % 2 ^ n →
    (∃ (r : Word) (c : BitVec 3),
      exec (.flip n) s = .next { s with res := r, status := c, rvalid := true } ∧
      exec (.flip n) { s with ports := p } =
        .next { s with ports := p, res := r, status := c, rvalid := true }) ∧
    ∀ offset length : Nat, ∃ (r : Word) (c : BitVec 3),
      exec (.subset offset length n) s = .next { s with res := r, status := c, rvalid := true } ∧
      exec (.subset offset length n) { s with ports := p } =
        .next { s with ports := p, res := r, status := c, rvalid := true }

/-! ## Laws between commands -/

/-- R64: the laws of FLIP. `flipBits x n` is what `flip n` writes on `OPA = x` (R63). -/
def Obligations.LawsOfFlip : Prop :=
  (∀ (x : Word) (n : Nat), 1 ≤ n → n ≤ 64 →
    flipBits (BitVec.ofNat 64 (flipBits x n)) n = x.toNat % 2 ^ n ∧
    flipBits x n = flipBits (BitVec.ofNat 64 (x.toNat % 2 ^ n)) n ∧ flipBits x n < 2 ^ n ∧
    (∀ i < n, flipBits (BitVec.ofNat 64 (2 ^ i)) n = 2 ^ (n - 1 - i)) ∧
    (∀ y : Word, flipBits (x ||| y) n = flipBits x n ||| flipBits y n ∧
      flipBits (x &&& y) n = flipBits x n &&& flipBits y n ∧
      flipBits (x ^^^ y) n = flipBits x n ^^^ flipBits y n) ∧
    (∀ i < n, (flipBits x n).testBit (n - 1 - i) = x.getLsbD i)) ∧
  flipBits 0x1234 16 = 0x2C48

/-- R63, R64 (a): two FLIPs of one width, the second on the result of the first, give back the sequence. -/
def Obligations.FlipTwiceGivesTheSequenceBack : Prop :=
  ∀ (n : Nat) (s t u : State), 1 ≤ n → n ≤ 64 → exec (.flip n) s = .next t →
    exec (.flip n) { t with ports := { t.ports with opa := t.res } } = .next u →
    u.res.toNat = s.ports.opa.toNat % 2 ^ n ∧ u.status = 0

/-- R65: FLIP as a datapath: the reversal of the 64 port bits, shifted right by `64 - N`. -/
def Obligations.FlipIsAReversalAndAShift : Prop :=
  ∀ (x : Word) (n : Nat), 1 ≤ n → n ≤ 64 → x.toNat < 2 ^ n → flipBits x n = flipBits x 64 >>> (64 - n)

/-- R67: the laws of SUBSET, `subsetBits x o l` being what `subset o, l, N` writes on `OPA = x`, and that `N`
influences the range check alone. -/
def Obligations.LawsOfSubset : Prop :=
  (∀ (x : Word) (n : Nat), 1 ≤ n → n ≤ 64 → subsetBits x 0 n = x.toNat % 2 ^ n) ∧
  (∀ (x : Word) (o l n : Nat), 1 ≤ l → n ≤ 64 → o + l ≤ n →
    subsetBits x o l = x.toNat / 2 ^ o % 2 ^ l ∧
    (∀ o2 l2, 1 ≤ l2 → o2 + l2 ≤ l →
      subsetBits (BitVec.ofNat 64 (subsetBits x o l)) o2 l2 = subsetBits x (o + o2) l2) ∧
    flipBits (BitVec.ofNat 64 (subsetBits x o l)) l =
      subsetBits (BitVec.ofNat 64 (flipBits x n)) (n - o - l) l) ∧
  (∀ (o l n n' : Nat) (s : State), 1 ≤ l → n ≤ 64 → n' ≤ 64 → o + l ≤ n → o + l ≤ n' →
    exec (.subset o l n) s = exec (.subset o l n') s)

/-- R85: MSB/LSB duality, for every result type and every width, and byte for byte. -/
def Obligations.MsbAndLsbExtractionAreDual : Prop :=
  ∀ s : State,
    (∀ (t : ResultType) (start width : Nat), start + width ≤ s.buffer1.lbits →
      exec (.getlsb t start width) s = exec (.getmsb t (s.buffer1.lbits - start - width) width) s ∧
      exec (.getmsb t start width) s = exec (.getlsb t (s.buffer1.lbits - start - width) width) s) ∧
    (∀ k < s.buffer1.elen,
      exec (.getmsb ⟨false, .bits8⟩ (8 * k) 8) s =
        .next { s with res := (s.buffer1.byte k).setWidth 64, status := 0, rvalid := true } ∧
      exec (.getlsb ⟨false, .bits8⟩ (8 * (s.buffer1.elen - 1 - k)) 8) s =
        .next { s with res := (s.buffer1.byte k).setWidth 64, status := 0, rvalid := true })

/-- R78: the sign-extension round trip. -/
def Obligations.SignedExtractionReturnsTheStoredValue : Prop :=
  ∀ (t : ResultType) (start n : Nat) (s : State) (v : Int), t.signed = true →
    1 ≤ n → n ≤ resultWidth t → start + n ≤ s.buffer1.lbits →
    -(2 ^ (n - 1) : Int) ≤ v → v ≤ 2 ^ (n - 1) - 1 →
    (∀ j < n, s.buffer1.bit (start + j) = (v % 2 ^ n).toNat.testBit (n - 1 - j)) →
    ∃ u, exec (.getmsb t start n) s = .next u ∧ u.status = 0 ∧ signedReading u.res (resultWidth t) = v

/-- R59: `extract_msb_unsigned(buf, s, w)` is `getmsb.u64 s, w` or any unsigned `getmsb` wide enough, and
returns `Span`. -/
def Obligations.ExtractMsbUnsignedReturnsSpan : Prop :=
  ∀ (start width : Nat) (z : Size) (s : State), 1 ≤ width → width ≤ resultWidth ⟨false, z⟩ →
    start + width ≤ s.buffer1.lbits →
    ∃ t, exec (DocumentCall.extractMsbUnsigned start width).command s = .next t ∧
      exec (.getmsb ⟨false, z⟩ start width) s = .next t ∧
      t.res.toNat = s.buffer1.span start width ∧ t.status = 0

/-- R92: the laws of SPLICE. -/
def Obligations.LawsOfSplice : Prop :=
  ∀ (t : ResultType) (s1 w1 s2 w2 : Nat) (s : State), 1 ≤ w1 → 1 ≤ w2 → w1 + w2 ≤ resultWidth t →
    s1 + w1 ≤ s.buffer1.lbits → s2 + w2 ≤ s.buffer1.lbits →
    ∃ u v, exec (.splice t s1 w1 s2 w2) s = .next u ∧ exec (.splice t s2 w2 s1 w1) s = .next v ∧
      (t.signed = false →
        u.res.toNat = s.buffer1.span s1 w1 <<< w2 ||| s.buffer1.span s2 w2 ∧
        v.res.toNat = s.buffer1.span s2 w2 <<< w1 ||| s.buffer1.span s1 w1) ∧
      u.res.toNat % 2 ^ w2 = s.buffer1.span s2 w2 ∧
      u.res.toNat / 2 ^ w2 % 2 ^ w1 = s.buffer1.span s1 w1 ∧
      v.res.toNat % 2 ^ w1 = s.buffer1.span s1 w1 ∧
      v.res.toNat / 2 ^ w1 % 2 ^ w2 = s.buffer1.span s2 w2 ∧
      (t.signed = true →
        signedReading u.res (resultWidth t) =
          ((s.buffer1.span s1 w1 <<< w2 ||| s.buffer1.span s2 w2 : Nat) : Int) -
            2 ^ (w1 + w2) * ((s.buffer1.bit s1).toNat : Int))

/-- R91: a SPLICE of adjacent spans is a GETMSB of the two together, faults included. -/
def Obligations.SpliceOfAdjacentSpansIsGetmsb : Prop :=
  ∀ (t : ResultType) (s1 w1 w2 : Nat) (s : State), 1 ≤ w1 → 1 ≤ w2 →
    exec (.splice t s1 w1 (s1 + w1) w2) s = exec (.getmsb t s1 (w1 + w2)) s

/-- R96: SPLICE2 on the same bytes at both ports is SPLICE, faults included. -/
def Obligations.Splice2OnEqualBuffersIsSplice : Prop :=
  ∀ (t : ResultType) (s1 w1 s2 w2 : Nat) (s : State), s.buffer1.elen = s.buffer2.elen →
    (∀ k < s.buffer1.elen, s.buffer1.byte k = s.buffer2.byte k) →
    exec (.splice2 t s1 w1 s2 w2) s = exec (.splice t s1 w1 s2 w2) s

/-! ## Power-on -/

/-- R21, R123, R20: a run from power-on starts at a reset edge, whatever the host presents beside `RST`, and
whatever values the registers held (5, 6 or 7 in `STATUS` among them) no trace of them is left. That a run
starts so is the choice of R21 that log entry 6 names. -/
def Obligations.RunsFromPowerOnStartAtAResetEdge : Prop :=
  ∀ (c : Config) (p : Ports) (schedule : List Ports) (res : Word) (status : BitVec 3) (rvalid : Bool),
    ∃ t, step (State.powerOn c p schedule) = .next t ∧
      t.res = 0 ∧ t.status = 0 ∧ t.rvalid = false ∧ t.config = c ∧
      step { State.powerOn c p schedule with res := res, status := status, rvalid := rvalid } = .next t
end

