-- ==== Sys2Proof/Laws/Bits.lean ====
section
/-! SUPPORT. What the datapath operations are, bit by bit: one lemma per operation, which later proofs
cite instead of unfolding it. -/

namespace Sys2Proof.Machine

theorem bitsValue_lt (f : Nat → Bool) (n : Nat) : bitsValue f n < 2 ^ n := by
  induction n with
  | zero => simp [bitsValue]
  | succ n ih =>
    have : (f n).toNat ≤ 1 := Bool.toNat_le (f n)
    have : (f n).toNat * 2 ^ n ≤ 1 * 2 ^ n := Nat.mul_le_mul_right _ this
    simp only [bitsValue, pow_succ]
    omega

/-- `bitsValue f n` is the number whose bit `i` is `f i` below `n`, and clear from `n` on. -/
theorem testBit_bitsValue (f : Nat → Bool) (n i : Nat) :
    (bitsValue f n).testBit i = (decide (i < n) && f i) := by
  induction n with
  | zero => simp [bitsValue]
  | succ n ih =>
    have h := bitsValue_lt f n
    rw [bitsValue, Nat.mul_comm, Nat.testBit_two_pow_mul_add _ h]
    rcases lt_trichotomy i n with hi | rfl | hi
    · simp [hi, ih, Nat.lt_succ_of_lt hi]
    · cases f i <;> simp
    · have h1 : ¬i < n := by omega
      have h2 : ¬i < n + 1 := by omega
      have h3 : i - n ≠ 0 := by omega
      have h4 : Nat.testBit 1 (i - n) = false := Nat.testBit_lt_two_pow (Nat.one_lt_two_pow h3)
      cases f n <;> simp [h1, h2, h4]

/-- A number below `2^n` is the number made of its bits. -/
theorem bitsValue_testBit (v n : Nat) : bitsValue v.testBit n = v % 2 ^ n := by
  refine Nat.eq_of_testBit_eq fun i => ?_
  simp [testBit_bitsValue, Nat.testBit_mod_two_pow]

/-- Two numbers made of the same bits are equal. -/
theorem bitsValue_congr {f g : Nat → Bool} {n : Nat} (h : ∀ i < n, f i = g i) :
    bitsValue f n = bitsValue g n := by
  refine Nat.eq_of_testBit_eq fun i => ?_
  by_cases hi : i < n <;> simp [testBit_bitsValue, hi]
  exact h i hi

theorem span_lt (b : Buffer) (s n : Nat) : b.span s n < 2 ^ n := bitsValue_lt _ _

/-- Bit `i` of a span is the buffer bit `n-1-i` places after its start, R32. -/
theorem testBit_span (b : Buffer) (s n i : Nat) :
    (b.span s n).testBit i = (decide (i < n) && b.bit (s + (n - 1 - i))) :=
  testBit_bitsValue _ _ _

theorem flipBits_lt (opa : Word) (n : Nat) : flipBits opa n < 2 ^ n := bitsValue_lt _ _

/-- Bit `i` of a reversed sequence is bit `n-1-i` of the sequence, R63. -/
theorem testBit_flipBits (opa : Word) (n i : Nat) :
    (flipBits opa n).testBit i = (decide (i < n) && opa.getLsbD (n - 1 - i)) :=
  testBit_bitsValue _ _ _

theorem subsetBits_lt (opa : Word) (offset length : Nat) : subsetBits opa offset length < 2 ^ length :=
  bitsValue_lt _ _

/-- Bit `i` of a run is bit `offset+i` of the sequence, R66. -/
theorem testBit_subsetBits (opa : Word) (offset length i : Nat) :
    (subsetBits opa offset length).testBit i = (decide (i < length) && opa.getLsbD (offset + i)) :=
  testBit_bitsValue _ _ _

/-- The `n` bytes read from byte `k` on, bit by bit, R31. -/
theorem testBit_memRead (b : Buffer) (k n i : Nat) :
    (b.memRead k n).testBit i =
      (decide (i < 8 * n) && (b.byte (k + (n - 1 - i / 8))).getLsbD (i % 8)) := by
  induction n generalizing i with
  | zero => simp [Buffer.memRead]
  | succ n ih =>
    rw [Buffer.memRead, Nat.testBit_or, Nat.testBit_shiftLeft]
    by_cases hi : i < 8
    · have h0 : i / 8 = 0 := by omega
      have h1 : i % 8 = i := by omega
      have h2 : i < 8 * (n + 1) := by omega
      have h3 : ¬8 ≤ i := by omega
      simp [h0, h1, h2, h3, BitVec.getLsbD]
    · have e : n - 1 - (i - 8) / 8 = n - i / 8 := by omega
      have e2 : (i - 8) % 8 = i % 8 := by omega
      have hz : (b.byte (k + n)).toNat.testBit i = false :=
        Nat.testBit_lt_two_pow (lt_of_lt_of_le (b.byte (k + n)).isLt
          (Nat.pow_le_pow_right (by omega) (by omega)))
      have h3 : 8 ≤ i := by omega
      have h4 : (i - 8 < 8 * n) = (i < 8 * (n + 1)) := by
        apply propext; constructor <;> intro <;> omega
      simp [ih, e, e2, hz, h3, h4]

theorem memRead_lt (b : Buffer) (k n : Nat) : b.memRead k n < 2 ^ (8 * n) := by
  refine Nat.lt_pow_two_of_testBit _ fun i hi => ?_
  have : ¬i < 8 * n := by omega
  simp [testBit_memRead, this]

/-- `Ext` keeps the `n` low bits and fills the others below `w` with the sign, or with zeros, R69. -/
theorem testBit_ext {u n w : Nat} (signed : Bool) (hu : u < 2 ^ n) (hn : n ≤ w) (i : Nat) :
    (ext u n w signed).testBit i =
      if i < n then u.testBit i else decide (i < w) && (signed && u.testBit (n - 1)) := by
  unfold ext
  by_cases hs : (signed && u.testBit (n - 1)) = true
  · have e : u + (2 ^ w - 2 ^ n) = 2 ^ n * (2 ^ (w - n) - 1) + u := by
      have : 2 ^ w = 2 ^ n * 2 ^ (w - n) := by rw [← pow_add]; congr 1; omega
      rw [this, Nat.mul_sub, Nat.mul_one, Nat.add_comm]
    simp only [hs, if_true]
    rw [e, Nat.testBit_two_pow_mul_add _ hu]
    by_cases hi : i < n
    · simp [hi]
    · have : (i - n < w - n) = (i < w) := by apply propext; constructor <;> intro <;> omega
      simp [hi, Nat.testBit_two_pow_sub_one, this]
  · simp only [Bool.not_eq_true] at hs
    simp only [hs]
    by_cases hi : i < n
    · simp [hi]
    · have : u.testBit i = false :=
        Nat.testBit_lt_two_pow (lt_of_lt_of_le hu (Nat.pow_le_pow_right (by omega) (by omega)))
      simp [hi, this]

/-- `Cat` puts the first value above the second, R89. -/
theorem testBit_cat {u1 u2 w2 : Nat} (h2 : u2 < 2 ^ w2) (i : Nat) :
    (cat u1 u2 w2).testBit i = if i < w2 then u2.testBit i else u1.testBit (i - w2) := by
  unfold cat
  rw [Nat.testBit_or, Nat.testBit_shiftLeft]
  by_cases hi : i < w2
  · have : ¬w2 ≤ i := by omega
    simp [hi, this]
  · have h : w2 ≤ i := by omega
    have : u2.testBit i = false :=
      Nat.testBit_lt_two_pow (lt_of_lt_of_le h2 (Nat.pow_le_pow_right (by omega) h))
    simp [hi, h, this]

theorem cat_lt {u1 u2 w1 w2 : Nat} (h1 : u1 < 2 ^ w1) (h2 : u2 < 2 ^ w2) :
    cat u1 u2 w2 < 2 ^ (w1 + w2) := by
  refine Nat.lt_pow_two_of_testBit _ fun i hi => ?_
  rw [testBit_cat h2, if_neg (by omega)]
  exact Nat.testBit_lt_two_pow (lt_of_lt_of_le h1 (Nat.pow_le_pow_right (by omega) (by omega)))

/-- The width of a result type is one of four, R45. -/
theorem resultWidth_cases (t : ResultType) :
    resultWidth t = 8 ∨ resultWidth t = 16 ∨ resultWidth t = 32 ∨ resultWidth t = 64 := by
  rcases t with ⟨_, _ | _ | _ | _⟩ <;> simp [resultWidth, Size.code]

theorem resultWidth_le (t : ResultType) : resultWidth t ≤ 64 := by
  rcases resultWidth_cases t with h | h | h | h <;> omega

/-- What a command with a result type loads into `RES`, bit by bit (R14, R69). -/
theorem getLsbD_typedResult {t : ResultType} {u n : Nat} (hu : u < 2 ^ n) (hn : n ≤ resultWidth t)
    (i : Nat) :
    (typedResult t u n).getLsbD i =
      if i < n then u.testBit i else decide (i < resultWidth t) && (t.signed && u.testBit (n - 1)) := by
  have hw := resultWidth_le t
  unfold typedResult
  rw [BitVec.getLsbD_ofNat, testBit_ext _ hu hn]
  by_cases h1 : i < n
  · simp [h1, show i < 64 by omega]
  · by_cases h2 : i < resultWidth t
    · simp [h1, h2, show i < 64 by omega]
    · simp [h1, h2]

end Sys2Proof.Machine
end

