-- ==== Sys2Proof/Laws/Encoding.lean ====
section
/-! SUPPORT. The fields of a packed command word (30_encoding.md R41). -/

namespace Sys2Proof

/-- Every field fits its width in format C, R41. -/
structure FieldsFit (op s sz rsv start1 width1 start2 width2 : Nat) : Prop where
  op : op < 16
  s : s < 2
  sz : sz < 4
  rsv : rsv < 2048
  start1 : start1 < 65536
  width1 : width1 < 128
  start2 : start2 < 65536
  width2 : width2 < 128

/-- A packed word as a number: its fields occupy disjoint bits, so the or of R41 is a sum (R54). -/
theorem packWord_toNat {op s sz rsv start1 width1 start2 width2 : Nat}
    (h : FieldsFit op s sz rsv start1 width1 start2 width2) :
    (packWord op s sz rsv start1 width1 start2 width2).toNat =
      op * 2 ^ 60 + s * 2 ^ 59 + sz * 2 ^ 57 + rsv * 2 ^ 46 + start1 * 2 ^ 30 + width1 * 2 ^ 23 +
        start2 * 2 ^ 7 + width2 := by
  obtain ⟨h1, h2, h3, h4, h5, h6, h7, h8⟩ := h
  have e : op <<< 60 ||| s <<< 59 ||| sz <<< 57 ||| rsv <<< 46 ||| start1 <<< 30 ||| width1 <<< 23 |||
      start2 <<< 7 ||| width2 = op * 2 ^ 60 + s * 2 ^ 59 + sz * 2 ^ 57 + rsv * 2 ^ 46 +
        start1 * 2 ^ 30 + width1 * 2 ^ 23 + start2 * 2 ^ 7 + width2 := by
    have f1 := Nat.shiftLeft_add_eq_or_of_lt (i := 60) (b := s <<< 59)
      (by simp only [Nat.shiftLeft_eq]; omega) op
    have f2 := Nat.shiftLeft_add_eq_or_of_lt (i := 59) (b := sz <<< 57)
      (by simp only [Nat.shiftLeft_eq]; omega) (op * 2 + s)
    have f3 := Nat.shiftLeft_add_eq_or_of_lt (i := 57) (b := rsv <<< 46)
      (by simp only [Nat.shiftLeft_eq]; omega) ((op * 2 + s) * 4 + sz)
    have f4 := Nat.shiftLeft_add_eq_or_of_lt (i := 46) (b := start1 <<< 30)
      (by simp only [Nat.shiftLeft_eq]; omega) (((op * 2 + s) * 4 + sz) * 2048 + rsv)
    have f5 := Nat.shiftLeft_add_eq_or_of_lt (i := 30) (b := width1 <<< 23)
      (by simp only [Nat.shiftLeft_eq]; omega)
      ((((op * 2 + s) * 4 + sz) * 2048 + rsv) * 65536 + start1)
    have f6 := Nat.shiftLeft_add_eq_or_of_lt (i := 23) (b := start2 <<< 7)
      (by simp only [Nat.shiftLeft_eq]; omega)
      (((((op * 2 + s) * 4 + sz) * 2048 + rsv) * 65536 + start1) * 128 + width1)
    have f7 := Nat.shiftLeft_add_eq_or_of_lt (i := 7) (b := width2)
      (by omega)
      ((((((op * 2 + s) * 4 + sz) * 2048 + rsv) * 65536 + start1) * 128 + width1) * 65536 + start2)
    simp only [Nat.shiftLeft_eq] at *
    rw [← f1]
    rw [show op * 2 ^ 60 + s * 2 ^ 59 = (op * 2 + s) * 2 ^ 59 by ring, ← f2]
    rw [show (op * 2 + s) * 2 ^ 59 + sz * 2 ^ 57 = ((op * 2 + s) * 4 + sz) * 2 ^ 57 by ring, ← f3]
    rw [show ((op * 2 + s) * 4 + sz) * 2 ^ 57 + rsv * 2 ^ 46 =
      (((op * 2 + s) * 4 + sz) * 2048 + rsv) * 2 ^ 46 by ring, ← f4]
    rw [show (((op * 2 + s) * 4 + sz) * 2048 + rsv) * 2 ^ 46 + start1 * 2 ^ 30 =
      ((((op * 2 + s) * 4 + sz) * 2048 + rsv) * 65536 + start1) * 2 ^ 30 by ring, ← f5]
    rw [show ((((op * 2 + s) * 4 + sz) * 2048 + rsv) * 65536 + start1) * 2 ^ 30 + width1 * 2 ^ 23 =
      (((((op * 2 + s) * 4 + sz) * 2048 + rsv) * 65536 + start1) * 128 + width1) * 2 ^ 23 by ring, ← f6]
    rw [show (((((op * 2 + s) * 4 + sz) * 2048 + rsv) * 65536 + start1) * 128 + width1) * 2 ^ 23 +
      start2 * 2 ^ 7 =
      ((((((op * 2 + s) * 4 + sz) * 2048 + rsv) * 65536 + start1) * 128 + width1) * 65536 + start2) * 2 ^ 7
      by ring, ← f7]
  rw [packWord, BitVec.toNat_ofNat, e, Nat.mod_eq_of_lt]
  omega

section Fields
variable {op s sz rsv start1 width1 start2 width2 : Nat}
  (h : FieldsFit op s sz rsv start1 width1 start2 width2)
include h

/-! Each field of a packed word is the one packed there. -/

theorem opOf_packWord : opOf (packWord op s sz rsv start1 width1 start2 width2) = op := by
  rw [opOf, field, packWord_toNat h, Nat.shiftRight_eq_div_pow]
  obtain ⟨h1, h2, h3, h4, h5, h6, h7, h8⟩ := h; omega

theorem sOf_packWord : sOf (packWord op s sz rsv start1 width1 start2 width2) = s := by
  rw [sOf, field, packWord_toNat h, Nat.shiftRight_eq_div_pow]
  obtain ⟨h1, h2, h3, h4, h5, h6, h7, h8⟩ := h; omega

theorem szOf_packWord : szOf (packWord op s sz rsv start1 width1 start2 width2) = sz := by
  rw [szOf, field, packWord_toNat h, Nat.shiftRight_eq_div_pow]
  obtain ⟨h1, h2, h3, h4, h5, h6, h7, h8⟩ := h; omega

theorem rsvOf_packWord : rsvOf (packWord op s sz rsv start1 width1 start2 width2) = rsv := by
  rw [rsvOf, field, packWord_toNat h, Nat.shiftRight_eq_div_pow]
  obtain ⟨h1, h2, h3, h4, h5, h6, h7, h8⟩ := h; omega

theorem start1Of_packWord : start1Of (packWord op s sz rsv start1 width1 start2 width2) = start1 := by
  rw [start1Of, field, packWord_toNat h, Nat.shiftRight_eq_div_pow]
  obtain ⟨h1, h2, h3, h4, h5, h6, h7, h8⟩ := h; omega

theorem width1Of_packWord : width1Of (packWord op s sz rsv start1 width1 start2 width2) = width1 := by
  rw [width1Of, field, packWord_toNat h, Nat.shiftRight_eq_div_pow]
  obtain ⟨h1, h2, h3, h4, h5, h6, h7, h8⟩ := h; omega

theorem start2Of_packWord : start2Of (packWord op s sz rsv start1 width1 start2 width2) = start2 := by
  rw [start2Of, field, packWord_toNat h, Nat.shiftRight_eq_div_pow]
  obtain ⟨h1, h2, h3, h4, h5, h6, h7, h8⟩ := h; omega

theorem width2Of_packWord : width2Of (packWord op s sz rsv start1 width1 start2 width2) = width2 := by
  rw [width2Of, field, packWord_toNat h, Nat.shiftRight_eq_div_pow]
  obtain ⟨h1, h2, h3, h4, h5, h6, h7, h8⟩ := h; omega

end Fields

/-- A field of `len` bits is below `2^len`. -/
theorem field_lt (w : Word) (lo len : Nat) : field w lo len < 2 ^ len :=
  Nat.mod_lt _ (Nat.two_pow_pos len)

/-- Bit `i` of a field is bit `lo + i` of the word. -/
theorem testBit_field (w : Word) (lo len i : Nat) :
    (field w lo len).testBit i = (decide (i < len) && w.getLsbD (lo + i)) := by
  simp [field, Nat.testBit_mod_two_pow, Nat.testBit_shiftRight, BitVec.getLsbD]

/-! Well-formedness of each command, as bounds on its operands (R58). -/

@[simp] theorem wellFormed_flip {n : Nat} : WellFormed (.flip n) ↔ n ≤ 127 := by
  simp [WellFormed, Instr.wf, widthFits]

@[simp] theorem wellFormed_subset {offset length n : Nat} :
    WellFormed (.subset offset length n) ↔ offset ≤ 65535 ∧ length ≤ 127 ∧ n ≤ 127 := by
  simp [WellFormed, Instr.wf, widthFits, startFits, and_assoc]

@[simp] theorem wellFormed_getmsb {t : ResultType} {start width : Nat} :
    WellFormed (.getmsb t start width) ↔ start ≤ 65535 ∧ width ≤ 127 := by
  simp [WellFormed, Instr.wf, widthFits, startFits]

@[simp] theorem wellFormed_getlsb {t : ResultType} {start width : Nat} :
    WellFormed (.getlsb t start width) ↔ start ≤ 65535 ∧ width ≤ 127 := by
  simp [WellFormed, Instr.wf, widthFits, startFits]

@[simp] theorem wellFormed_splice {t : ResultType} {start1 width1 start2 width2 : Nat} :
    WellFormed (.splice t start1 width1 start2 width2) ↔
      start1 ≤ 65535 ∧ width1 ≤ 127 ∧ start2 ≤ 65535 ∧ width2 ≤ 127 := by
  simp [WellFormed, Instr.wf, widthFits, startFits, and_assoc]

@[simp] theorem wellFormed_splice2 {t : ResultType} {start1 width1 start2 width2 : Nat} :
    WellFormed (.splice2 t start1 width1 start2 width2) ↔
      start1 ≤ 65535 ∧ width1 ≤ 127 ∧ start2 ≤ 65535 ∧ width2 ≤ 127 := by
  simp [WellFormed, Instr.wf, widthFits, startFits, and_assoc]

theorem Size.code_lt (z : Size) : z.code < 4 := by cases z <;> decide

theorem Size.ofCode_code (z : Size) : Size.ofCode z.code = z := by cases z <;> rfl

end Sys2Proof
end

