-- ==== Sys2Proof/Laws/State.lean ====
section
/-! SUPPORT. What each update of a state leaves in each field. -/

namespace Sys2Proof.Machine

section Updates
variable (s : State) (f : FaultCode) (v : Word)

@[simp] theorem raiseFault_res : (raiseFault f s).res = 0 := rfl
@[simp] theorem raiseFault_status : (raiseFault f s).status = f.code := rfl
@[simp] theorem raiseFault_rvalid : (raiseFault f s).rvalid = true := rfl
@[simp] theorem raiseFault_config : (raiseFault f s).config = s.config := rfl
@[simp] theorem raiseFault_ports : (raiseFault f s).ports = s.ports := rfl
@[simp] theorem raiseFault_schedule : (raiseFault f s).schedule = s.schedule := rfl
@[simp] theorem raiseFault_edge : (raiseFault f s).edge = s.edge := rfl

@[simp] theorem deliver_res : (deliver v s).res = v := rfl
@[simp] theorem deliver_status : (deliver v s).status = okStatus := rfl
@[simp] theorem deliver_rvalid : (deliver v s).rvalid = true := rfl
@[simp] theorem deliver_config : (deliver v s).config = s.config := rfl
@[simp] theorem deliver_ports : (deliver v s).ports = s.ports := rfl
@[simp] theorem deliver_schedule : (deliver v s).schedule = s.schedule := rfl
@[simp] theorem deliver_edge : (deliver v s).edge = s.edge := rfl

@[simp] theorem resetEdge_res : (resetEdge s).res = 0 := rfl
@[simp] theorem resetEdge_status : (resetEdge s).status = 0 := rfl
@[simp] theorem resetEdge_rvalid : (resetEdge s).rvalid = false := rfl
@[simp] theorem resetEdge_config : (resetEdge s).config = s.config := rfl
@[simp] theorem resetEdge_ports : (resetEdge s).ports = s.ports := rfl
@[simp] theorem resetEdge_schedule : (resetEdge s).schedule = s.schedule := rfl
@[simp] theorem resetEdge_edge : (resetEdge s).edge = s.edge := rfl

@[simp] theorem idleEdge_res : (idleEdge s).res = s.res := rfl
@[simp] theorem idleEdge_status : (idleEdge s).status = s.status := rfl
@[simp] theorem idleEdge_rvalid : (idleEdge s).rvalid = false := rfl
@[simp] theorem idleEdge_config : (idleEdge s).config = s.config := rfl
@[simp] theorem idleEdge_ports : (idleEdge s).ports = s.ports := rfl
@[simp] theorem idleEdge_schedule : (idleEdge s).schedule = s.schedule := rfl
@[simp] theorem idleEdge_edge : (idleEdge s).edge = s.edge := rfl

/-- The ports after an edge: the scheduled sample, else the host's free choice. -/
theorem advancePorts_ports :
    (advancePorts s).ports = s.schedule.headD (hostPorts s.config (s.edge + 1)) := by
  unfold advancePorts; cases s.schedule <;> rfl

@[simp] theorem advancePorts_res : (advancePorts s).res = s.res := by
  unfold advancePorts; split <;> rfl
@[simp] theorem advancePorts_status : (advancePorts s).status = s.status := by
  unfold advancePorts; split <;> rfl
@[simp] theorem advancePorts_rvalid : (advancePorts s).rvalid = s.rvalid := by
  unfold advancePorts; split <;> rfl
@[simp] theorem advancePorts_config : (advancePorts s).config = s.config := by
  unfold advancePorts; split <;> rfl
@[simp] theorem advancePorts_schedule : (advancePorts s).schedule = s.schedule.tail := by
  unfold advancePorts; cases s.schedule <;> rfl
@[simp] theorem advancePorts_edge : (advancePorts s).edge = s.edge + 1 := by
  unfold advancePorts; split <;> rfl

variable (nbits w : Nat)

@[simp] theorem withFetchWord_res : (s.withFetchWord nbits w).res = s.res := rfl
@[simp] theorem withFetchWord_status : (s.withFetchWord nbits w).status = s.status := rfl
@[simp] theorem withFetchWord_rvalid : (s.withFetchWord nbits w).rvalid = s.rvalid := rfl
@[simp] theorem withFetchWord_config : (s.withFetchWord nbits w).config = s.config := rfl
@[simp] theorem withFetchWord_schedule : (s.withFetchWord nbits w).schedule = s.schedule := rfl
@[simp] theorem withFetchWord_edge : (s.withFetchWord nbits w).edge = s.edge := rfl
@[simp] theorem withFetchWord_rst : (s.withFetchWord nbits w).ports.rst = false := rfl
@[simp] theorem withFetchWord_cmdValid : (s.withFetchWord nbits w).ports.cmdValid = true := rfl
@[simp] theorem withFetchWord_cmd :
    (s.withFetchWord nbits w).ports.cmd = BitVec.ofNat 64 (w % 2 ^ nbits) := rfl

section PowerOn
variable (c : Config) (p : Ports) (schedule : List Ports)

@[simp] theorem powerOn_res : (State.powerOn c p schedule).res = Config.powerOnRes := rfl
@[simp] theorem powerOn_status : (State.powerOn c p schedule).status = Config.powerOnStatus := rfl
@[simp] theorem powerOn_rvalid : (State.powerOn c p schedule).rvalid = Config.powerOnRvalid := rfl
@[simp] theorem powerOn_config : (State.powerOn c p schedule).config = c := rfl
@[simp] theorem powerOn_ports : (State.powerOn c p schedule).ports = { p with rst := true } := rfl
@[simp] theorem powerOn_schedule : (State.powerOn c p schedule).schedule = schedule := rfl
@[simp] theorem powerOn_edge : (State.powerOn c p schedule).edge = 0 := rfl

end PowerOn

@[simp] theorem buffer1_elen :
    s.buffer1.elen = effectiveLength s.config s.ports.len1 := rfl
@[simp] theorem buffer2_elen :
    s.buffer2.elen = effectiveLength s.config s.ports.len2 := rfl
@[simp] theorem buffer1_byte (k : Nat) : s.buffer1.byte k = s.ports.buf1.read k := rfl
@[simp] theorem buffer2_byte (k : Nat) : s.buffer2.byte k = s.ports.buf2.read k := rfl

end Updates

end Sys2Proof.Machine
end

