-- ==== Sys2Proof/Laws/Exec.lean ====
section
/-! SUPPORT. What a command and an edge can do, each said once. -/

namespace Sys2Proof.Machine

theorem complete_ok (v : Word) (s : State) : complete (.ok v) s = .next (deliver v s) := rfl

theorem complete_error (f : FaultCode) (s : State) :
    complete (.error f) s = .next (raiseFault f s) := rfl

/-- Everything the end of a command can do: it answers a next state, which is its result delivered or its
fault entered. -/
theorem complete_cases {r : Except FaultCode Word} {s s' : State} (h : complete r s = .next s') :
    (∃ v, r = .ok v ∧ s' = deliver v s) ∨ (∃ f, r = .error f ∧ s' = raiseFault f s) := by
  cases r with
  | ok v => exact .inl ⟨v, rfl, by simpa [complete_ok] using h.symm⟩
  | error f => exact .inr ⟨f, rfl, by simpa [complete_error] using h.symm⟩

/-- Every meaning is the end of a command over its outcome as a function of the inputs (R99). -/
theorem exec_eq_complete (i : Instr) (s : State) :
    exec i s = complete (commandResult i s.ports.opa s.buffer1 s.buffer2) s := by
  cases i <;> rfl

/-- Everything an edge can do (R119): it answers a next state, the registers of the reset, of the accepted
command, of the illegal word or of the idle edge, and then the host's next port values. -/
theorem step_cases {s s' : State} (h : step s = .next s') :
    (s.ports.rst = true ∧ s' = advancePorts (resetEdge s)) ∨
    (s.ports.rst = false ∧ s.ports.cmdValid = true ∧
      ((∃ i t, decode s.ports.cmd = .ok i ∧ exec i s = .next t ∧ s' = advancePorts t) ∨
       (∃ e, decode s.ports.cmd = .error e ∧
          s' = advancePorts (raiseFault .illegalCommand s)))) ∨
    (s.ports.rst = false ∧ s.ports.cmdValid = false ∧ s' = advancePorts (idleEdge s)) := by
  unfold step at h
  by_cases hr : s.ports.rst = true
  · exact .inl ⟨hr, by simpa [hr, afterEdge] using h.symm⟩
  · rw [if_neg hr] at h
    rw [Bool.not_eq_true] at hr
    by_cases hc : s.ports.cmdValid = true
    · rw [if_pos hc] at h
      refine .inr (.inl ⟨hr, hc, ?_⟩)
      cases hd : decode s.ports.cmd with
      | error e => exact .inr ⟨e, rfl, by simpa [hd, afterEdge, complete_error] using h.symm⟩
      | ok i =>
        refine .inl ⟨i, ?_⟩
        rw [hd] at h
        obtain ⟨t, ht⟩ : ∃ t, exec i s = .next t := by
          rw [exec_eq_complete]; exact ⟨_, rfl⟩
        exact ⟨t, rfl, ht, by simpa [ht, afterEdge] using h.symm⟩
    · rw [if_neg hc] at h
      rw [Bool.not_eq_true] at hc
      exact .inr (.inr ⟨hr, hc, by simpa [afterEdge] using h.symm⟩)

/-- A run of `k + 1` edges is one edge and a run of `k` from where it leads. -/
theorem run_succ {k : Nat} {s t : State} (h : step s = .next t) : core.run (k + 1) s = core.run k t := by
  have h' : core.step s = .next t := h
  have e := Host.Core.run.eq_2 core s k
  rw [h'] at e
  exact e

end Sys2Proof.Machine
end

