-- ==== Sys2Proof/Laws/Memory.lean ====
section
/-! SUPPORT. The byte lanes of a buffer port: what a read gives after a write, and that every operation
keeps the canonical form. -/

namespace Sys2Proof.Machine

/-- Every listed index of `m` lies above `k`. -/
abbrev Memory.above (m : Memory) (k : Nat) : Prop := ∀ c ∈ m, k < c.1

theorem Memory.wf_cons {a : Nat} {b : Byte} {m : Memory} :
    Memory.wf ((a, b) :: m) = true ↔ b ≠ Memory.blank ∧ Memory.above m a ∧ Memory.wf m = true := by
  simp [Memory.wf, Memory.above, and_assoc]

/-- A lane below every listed index is unlisted. -/
theorem Memory.read_of_above {m : Memory} {k : Nat} (h : Memory.above m k) :
    m.read k = Memory.blank := by
  induction m with
  | nil => rfl
  | cons c m ih =>
    have hc := h c (by simp)
    simp only [Memory.read, Nat.ne_of_gt hc, if_false]
    exact ih fun d hd => h d (by simp [hd])

/-- A read after a write gives the byte written there and leaves every other lane alone. -/
theorem Memory.read_write {m : Memory} (hm : m.wf = true) (k j : Nat) (v : Byte) :
    (m.write k v).read j = if j = k then v else m.read j := by
  induction m with
  | nil =>
    have hr : Memory.read [] j = Memory.blank := rfl
    by_cases hv : v = Memory.blank
    · simp [Memory.write, hv, hr]
    · by_cases hj : k = j
      · simp [Memory.write, hv, Memory.read, hj]
      · simp [Memory.write, hv, Memory.read, hj, Ne.symm hj]
  | cons c m ih =>
    obtain ⟨a, b⟩ := c
    obtain ⟨_, ha, hw⟩ := Memory.wf_cons.1 hm
    have ih := ih hw
    rcases lt_trichotomy k a with hk | rfl | hk
    · have hmk : Memory.read ((a, b) :: m) k = Memory.blank := by
        refine Memory.read_of_above fun d hd => ?_
        rcases List.mem_cons.1 hd with rfl | hd
        · exact hk
        · exact hk.trans (ha d hd)
      by_cases hv : v = Memory.blank <;> by_cases hj : j = k
      · subst hj; simp [Memory.write, hk, hv, hmk]
      · simp [Memory.write, hk, hv, hj]
      · subst hj; simp [Memory.write, hk, hv, Memory.read]
      · have : ¬k = j := fun h => hj h.symm
        simp [Memory.write, hk, hv, hj, Memory.read, this]
    · by_cases hv : v = Memory.blank <;> by_cases hj : j = k
      · subst hj; simp [Memory.write, hv, Memory.read_of_above ha]
      · have : ¬k = j := fun h => hj h.symm
        simp [Memory.write, hv, hj, Memory.read, this]
      · subst hj; simp [Memory.write, hv, Memory.read]
      · have : ¬k = j := fun h => hj h.symm
        simp [Memory.write, hv, hj, Memory.read, this]
    · have h1 : ¬k < a := by omega
      have h2 : ¬k = a := by omega
      by_cases hj : j = k
      · subst hj
        have : ¬a = j := by omega
        simpa [Memory.write, h1, h2, Memory.read, this] using ih
      · by_cases haj : a = j
        · subst haj
          simp [Memory.write, h1, h2, hj, Memory.read]
        · simpa [Memory.write, h1, h2, hj, Memory.read, haj] using ih

/-- A write lists nothing below what was listed, but for its own lane. -/
theorem Memory.above_write {m : Memory} {a k : Nat} {v : Byte} (h : Memory.above m a) (hk : a < k) :
    Memory.above (m.write k v) a := by
  induction m with
  | nil =>
    by_cases hv : v = Memory.blank <;> simp [Memory.write, hv, Memory.above, hk]
  | cons c m ih =>
    obtain ⟨x, b⟩ := c
    have hx := h (x, b) (by simp)
    have hm : Memory.above m a := fun d hd => h d (by simp [hd])
    have ih := ih hm
    unfold Memory.write
    split_ifs
    · exact h
    · intro d hd
      rcases List.mem_cons.1 hd with rfl | hd
      · exact hk
      · exact h d hd
    · exact hm
    · intro d hd
      rcases List.mem_cons.1 hd with rfl | hd
      · exact hk
      · exact hm d hd
    · intro d hd
      rcases List.mem_cons.1 hd with rfl | hd
      · exact hx
      · exact ih d hd

/-- A write keeps the canonical form. -/
theorem Memory.wf_write {m : Memory} (hm : m.wf = true) (k : Nat) (v : Byte) :
    (m.write k v).wf = true := by
  induction m with
  | nil => by_cases hv : v = Memory.blank <;> simp [Memory.write, hv, Memory.wf]
  | cons c m ih =>
    obtain ⟨a, b⟩ := c
    obtain ⟨hb, ha, hw⟩ := Memory.wf_cons.1 hm
    unfold Memory.write
    split_ifs with h1 hv h2 hv
    · exact hm
    · refine Memory.wf_cons.2 ⟨hv, fun d hd => ?_, hm⟩
      rcases List.mem_cons.1 hd with rfl | hd
      · exact h1
      · exact h1.trans (ha d hd)
    · exact hw
    · exact Memory.wf_cons.2 ⟨hv, h2 ▸ ha, hw⟩
    · exact Memory.wf_cons.2 ⟨hb, Memory.above_write ha (by omega), ih hw⟩

/-- Bytes laid out from a lane on list nothing below it. -/
theorem Memory.le_of_mem_ofBytesFrom {k : Nat} {bs : List Byte} {c : Host.Cell}
    (h : c ∈ Memory.ofBytesFrom k bs) : k ≤ c.1 ∧ c.1 < k + bs.length := by
  induction bs generalizing k with
  | nil => simp [Memory.ofBytesFrom] at h
  | cons b bs ih =>
    unfold Memory.ofBytesFrom at h
    split_ifs at h
    · have := ih h; simp only [List.length_cons]; omega
    · rcases List.mem_cons.1 h with rfl | h
      · simp
      · have := ih h; simp only [List.length_cons]; omega

theorem Memory.wf_ofBytesFrom (k : Nat) (bs : List Byte) : (Memory.ofBytesFrom k bs).wf = true := by
  induction bs generalizing k with
  | nil => rfl
  | cons b bs ih =>
    unfold Memory.ofBytesFrom
    split_ifs with hb
    · exact ih _
    · exact Memory.wf_cons.2 ⟨hb, fun d hd => (Memory.le_of_mem_ofBytesFrom hd).1, ih _⟩

/-- A port built from bytes has the canonical form. -/
theorem Memory.wf_ofBytes (bs : List Byte) : (Memory.ofBytes bs).wf = true :=
  Memory.wf_ofBytesFrom 0 bs

/-- A port built from at most `nb` bytes lists no lane from `nb` on. -/
theorem Memory.below_ofBytes {bs : List Byte} {nb : Nat} (h : bs.length ≤ nb) :
    (Memory.ofBytes bs).below nb = true := by
  simp only [Memory.below, List.all_eq_true, decide_eq_true_eq]
  intro c hc
  have := Memory.le_of_mem_ofBytesFrom hc
  omega

theorem Memory.read_ofBytesFrom (k j : Nat) (bs : List Byte) :
    (Memory.ofBytesFrom k bs).read (k + j) = bs.getD j Memory.blank := by
  induction bs generalizing k j with
  | nil => rfl
  | cons b bs ih =>
    cases j with
    | zero =>
      unfold Memory.ofBytesFrom
      split_ifs with hb
      · have : Memory.above (Memory.ofBytesFrom (k + 1) bs) k := fun d hd => by
          have := Memory.le_of_mem_ofBytesFrom hd; omega
        simp [Memory.read_of_above this, hb]
      · simp [Memory.read]
    | succ j =>
      have ih := ih (k + 1) j
      have e : k + 1 + j = k + (j + 1) := by omega
      rw [e] at ih
      unfold Memory.ofBytesFrom
      split_ifs with hb
      · simpa using ih
      · have : ¬k = k + (j + 1) := by omega
        simpa [Memory.read, this] using ih

/-- A port built from bytes carries them, byte 0 first; lanes past them carry the blank byte. -/
theorem Memory.read_ofBytes (bs : List Byte) (k : Nat) :
    (Memory.ofBytes bs).read k = bs.getD k Memory.blank := by
  simpa [Memory.ofBytes] using Memory.read_ofBytesFrom 0 k bs

/-- The host's free port values have the form the ports can carry. -/
theorem hostPorts_wf (c : Config) (edge : Nat) : (hostPorts c edge).wf c = true := by
  have h (n m : Nat) : n % 2 ^ m < 2 ^ m := Nat.mod_lt _ (Nat.two_pow_pos m)
  simp [Ports.wf, hostPorts, Memory.wf_ofBytes, Memory.below_ofBytes, h]

/-- The memory of the reset state has the canonical form. -/
theorem reset_memory_wf :
    State.reset.ports.buf1.wf = true ∧ State.reset.ports.buf2.wf = true := by decide

end Sys2Proof.Machine
end

