-- ==== Sys2Proof/Laws/PerInstr.lean ====
section
/-! SUPPORT. A family of statements about every command as syntax: its canonical word selects its own row
of the opcode table (30_encoding.md R54). One lemma per constructor. -/

namespace Sys2Proof.Laws.SelectsRow

/-- The canonical word of a well-formed command carries the command's opcode and no reserved bit: the
bits that the mask of the opcode table looks at (R54). -/
def Statement (i : Instr) : Prop :=
  WellFormed i → opOf (encode i) = i.opcode ∧ rsvOf (encode i) = 0

theorem of_fieldsFit {op s sz start1 width1 start2 width2 : Nat}
    (h : FieldsFit op s sz 0 start1 width1 start2 width2) :
    opOf (packWord op s sz 0 start1 width1 start2 width2) = op ∧
      rsvOf (packWord op s sz 0 start1 width1 start2 width2) = 0 :=
  ⟨opOf_packWord h, rsvOf_packWord h⟩

theorem flip (n : Nat) : Statement (.flip n) := by
  intro h
  rw [wellFormed_flip] at h
  exact of_fieldsFit (by constructor <;> omega)

theorem subset (offset length n : Nat) : Statement (.subset offset length n) := by
  intro h
  rw [wellFormed_subset] at h
  exact of_fieldsFit (by constructor <;> omega)

theorem getmsb (t : ResultType) (start width : Nat) : Statement (.getmsb t start width) := by
  intro h
  have hz := t.size.code_lt
  have hs := Bool.toNat_lt t.signed
  rw [wellFormed_getmsb] at h
  exact of_fieldsFit (by constructor <;> omega)

theorem getlsb (t : ResultType) (start width : Nat) : Statement (.getlsb t start width) := by
  intro h
  have hz := t.size.code_lt
  have hs := Bool.toNat_lt t.signed
  rw [wellFormed_getlsb] at h
  exact of_fieldsFit (by constructor <;> omega)

theorem splice (t : ResultType) (start1 width1 start2 width2 : Nat) :
    Statement (.splice t start1 width1 start2 width2) := by
  intro h
  have hz := t.size.code_lt
  have hs := Bool.toNat_lt t.signed
  rw [wellFormed_splice] at h
  exact of_fieldsFit (by constructor <;> omega)

theorem splice2 (t : ResultType) (start1 width1 start2 width2 : Nat) :
    Statement (.splice2 t start1 width1 start2 width2) := by
  intro h
  have hz := t.size.code_lt
  have hs := Bool.toNat_lt t.signed
  rw [wellFormed_splice2] at h
  exact of_fieldsFit (by constructor <;> omega)

end Sys2Proof.Laws.SelectsRow
end

