-- ==== Sys2Proof/Tests/Slice0.lean ====
section
/-! SUPPORT. Our own tests. Expected values are those of spec/95_test_vectors.md or of the rule named; the
witnesses at the end meet the hypotheses of the statements. -/

namespace Sys2Proof.Tests

open Sys2Proof.Machine

/-! ## Small states -/

/-- A port sample that presents a command, with the lengths of the byte lists shown. -/
def sample (cmd opa : Word) (b1 b2 : List Byte) : Ports :=
  { rst := false, cmdValid := true, cmd := cmd, opa := opa, buf1 := Memory.ofBytes b1, len1 := b1.length,
    buf2 := Memory.ofBytes b2, len2 := b2.length }

/-- A state with `NB = 10` that the sample is presented to, holding an earlier fault. -/
def present (p : Ports) : State :=
  { State.reset with config := ⟨10⟩, ports := p, res := 0, status := 1, rvalid := true }

/-- What the host reads after one edge. -/
def reads : Host.Outcome State Fault Refusal → Option (Word × BitVec 3 × Bool)
  | .next s => some (s.res, s.status, s.rvalid)
  | .fault _ => none
  | .refused _ => none

/-- `RES`, `STATUS` and `RVALID` after an edge that presents the given values. -/
def run (cmd opa : Word) (b1 b2 : List Byte) : Option (Word × BitVec 3 × Bool) :=
  reads (step (present (sample cmd opa b1 b2)))

/-- The buffer `B4` of the spec's vectors. -/
def b4 : List Byte := [0x01, 0x23, 0x45, 0x67]

/-- The buffer `B10` of the spec's vectors. -/
def b10 : List Byte := [0x01, 0xFF, 0xEE, 0xDD, 0xCC, 0xBB, 0xAA, 0x99, 0x88, 0x80]

/-! ## Well-formedness: an ill-formed term for each check (R58) -/

theorem test_wf_refuses_flip_width : ¬ WellFormed (.flip 128) := by decide
theorem test_wf_refuses_subset_offset : ¬ WellFormed (.subset 65536 1 1) := by decide
theorem test_wf_refuses_subset_length : ¬ WellFormed (.subset 0 128 1) := by decide
theorem test_wf_refuses_subset_width : ¬ WellFormed (.subset 0 1 128) := by decide
theorem test_wf_refuses_getmsb_start : ¬ WellFormed (.getmsb default 65536 1) := by decide
theorem test_wf_refuses_getmsb_width : ¬ WellFormed (.getmsb default 0 128) := by decide
theorem test_wf_refuses_getlsb_start : ¬ WellFormed (.getlsb default 65536 1) := by decide
theorem test_wf_refuses_getlsb_width : ¬ WellFormed (.getlsb default 0 128) := by decide
theorem test_wf_refuses_splice_start1 : ¬ WellFormed (.splice default 65536 1 0 1) := by decide
theorem test_wf_refuses_splice_width1 : ¬ WellFormed (.splice default 0 128 0 1) := by decide
theorem test_wf_refuses_splice_start2 : ¬ WellFormed (.splice default 0 1 65536 1) := by decide
theorem test_wf_refuses_splice_width2 : ¬ WellFormed (.splice default 0 1 0 128) := by decide
theorem test_wf_refuses_splice2_start1 : ¬ WellFormed (.splice2 default 65536 1 0 1) := by decide
theorem test_wf_refuses_splice2_width1 : ¬ WellFormed (.splice2 default 0 128 0 1) := by decide
theorem test_wf_refuses_splice2_start2 : ¬ WellFormed (.splice2 default 0 1 65536 1) := by decide
theorem test_wf_refuses_splice2_width2 : ¬ WellFormed (.splice2 default 0 1 0 128) := by decide
/-- A width of 0 and one above the capacity are no form errors (R58). -/
theorem test_wf_admits_faulting_widths : WellFormed (.flip 0) ∧ WellFormed (.getmsb default 65535 127) := by
  decide

/-! ## Decoding: every constructor's word, written out from R41 and R47
(OP, S, SZ, RSV, START1, WIDTH1, START2, WIDTH2) -/

theorem test_decode_flip :
    decode (0b0001#4 ++ 0b0#1 ++ 0b00#2 ++ 0b00000000000#11 ++ 0b0000000000000000#16 ++ 0b0001100#7 ++
      0b0000000000000000#16 ++ 0b0000000#7) = .ok (.flip 12) := by decide
theorem test_decode_subset :
    decode (0b0010#4 ++ 0b0#1 ++ 0b00#2 ++ 0b00000000000#11 ++ 0b0000000000000100#16 ++ 0b0001000#7 ++
      0b0000000000000000#16 ++ 0b0010000#7) = .ok (.subset 4 8 16) := by decide
theorem test_decode_getmsb :
    decode (0b0011#4 ++ 0b1#1 ++ 0b01#2 ++ 0b00000000000#11 ++ 0b0000000000001010#16 ++ 0b0001100#7 ++
      0b0000000000000000#16 ++ 0b0000000#7) = .ok (.getmsb ⟨true, .bits16⟩ 10 12) := by decide
theorem test_decode_getlsb :
    decode (0b0100#4 ++ 0b0#1 ++ 0b11#2 ++ 0b00000000000#11 ++ 0b0000000000001001#16 ++ 0b1000000#7 ++
      0b0000000000000000#16 ++ 0b0000000#7) = .ok (.getlsb ⟨false, .bits64⟩ 9 64) := by decide
theorem test_decode_splice :
    decode (0b0101#4 ++ 0b1#1 ++ 0b10#2 ++ 0b00000000000#11 ++ 0b0000000000001000#16 ++ 0b0001000#7 ++
      0b0000000000100010#16 ++ 0b0001110#7) = .ok (.splice ⟨true, .bits32⟩ 8 8 34 14) := by decide
theorem test_decode_splice2 :
    decode (0b0110#4 ++ 0b1#1 ++ 0b01#2 ++ 0b00000000000#11 ++ 0b0000000000000100#16 ++ 0b0000100#7 ++
      0b0000000000000001#16 ++ 0b0000111#7) = .ok (.splice2 ⟨true, .bits16⟩ 4 4 1 7) := by decide

/-- X1, X2, X4, X5, X6: reserved opcodes and reserved bits. -/
theorem test_decode_rejects :
    decode 0x0000000000000000 = .error .reservedOpcode ∧ decode 0x7000000000000000 = .error .reservedOpcode ∧
    decode 0xF000000000000000 = .error .reservedOpcode ∧ decode 0x3000400004000000 = .error .reservedBits ∧
    decode 0x3100000004000000 = .error .reservedBits := by decide

/-- R54 with R55: the canonical words of two commands. -/
theorem test_encode :
    encode (.splice ⟨false, .bits16⟩ 8 8 24 8) = 0x5200000204000C08 ∧
    encode (.getmsb ⟨true, .bits64⟩ 7 64) = 0x3E000001E0000000 := by decide

theorem test_decodeTableWord :
    decodeTableWord 64 0x1000000004000000 = some (.flip 8) ∧ decodeTableWord 64 0 = none := by decide

/-! ## One edge: vectors of 95_test_vectors.md -/

/-- F6: bits of `OPA` above `N` are ignored. -/
theorem test_flip_ignores_upper_operand : run 0x1000000002800000 0xF6 [] [] = some (0x0D, 0, true) := by decide
/-- F15: ignored fields all ones. -/
theorem test_flip_ignores_fields : run 0x1E003FFFC47FFFFF 0x01 [] [] = some (0x80, 0, true) := by decide
/-- SB1. -/
theorem test_subset : run 0x2000000104000010 0xABCD [] [] = some (0xBC, 0, true) := by decide
/-- SB9: `ZeroWidth` before `OutOfRange`. -/
theorem test_subset_zero_width : run 0x2000000002000000 0xABCD [] [] = some (0, 3, true) := by decide
/-- M12: a nine-byte span. -/
theorem test_getmsb_nine_bytes : run 0x36000001E0000000 0 b10 [] = some (0xFFF76EE65DD54CC4, 0, true) := by
  decide
/-- M6: a negative 12-bit span as a signed 16-bit value, `RES[63:16]` zero. -/
theorem test_getmsb_signed : run 0x3A00000286000000 0 b4 [] = some (0xF8D1, 0, true) := by decide
/-- L5: the last byte holds LSB index 0. -/
theorem test_getlsb : run 0x4200000106000000 0 b4 [] = some (0x0456, 0, true) := by decide
/-- L14: the same bytes under a shorter length. -/
theorem test_getlsb_length :
    reads (step (present { sample 0x4000000004000000 0 b4 [] with len1 := 3 })) = some (0x45, 0, true) := by
  decide
/-- P15: the first span's first bit is the sign. -/
theorem test_splice_sign : run 0x5A00000002000404 0 [0xF0, 0x70] [] = some (0xFFF7, 0, true) := by decide
/-- P19: the second span past the end. -/
theorem test_splice_out_of_range : run 0x5000000002000E84 0 b4 [] = some (0, 1, true) := by decide
/-- Q2. -/
theorem test_splice2 : run 0x6A00000102000087 0 [0x0F] [0x81] = some (0xFF81, 0, true) := by decide
/-- Q4: the second span is checked against buffer 2. -/
theorem test_splice2_out_of_range : run 0x6000000002000404 0 b4 [0xCD] = some (0, 1, true) := by decide
/-- X9: `IllegalCommand` before `ZeroWidth`. -/
theorem test_illegal_before_zero_width : run 0x3000400000000000 0 b4 [] = some (0, 4, true) := by decide

/-- R120: reset wins over a command. -/
theorem test_reset_wins :
    reads (step (present { sample 0x1000000004000000 1 [] [] with rst := true })) = some (0, 0, false) := by
  decide
/-- R123, R20: a run from power-on starts at a reset edge, a command presented beside it notwithstanding. -/
theorem test_powerOn_resets :
    reads (step (State.powerOn ⟨10⟩ (sample 0x1000000004000000 1 [] []) [])) = some (0, 0, false) := by decide
/-- R119: without a command the registers hold and `RVALID` falls. -/
theorem test_idle_holds :
    reads (step (present { sample 0x1000000004000000 1 [] [] with cmdValid := false })) =
      some (0, 1, false) := by decide
/-- R27: a length above `NB` is cut to `NB`; `getmsb.u8 80, 1` is past ten bytes. -/
theorem test_length_clamp :
    reads (step (present { sample 0x3000001400800000 0 b10 [] with len1 := 15 })) = some (0, 1, true) := by
  decide
/-- R26: byte 0 is the top lane of the packed port. -/
theorem test_port_lanes : Memory.ofPort 4 0x01230067 = [(0, 0x01), (1, 0x23), (3, 0x67)] := by decide
/-- The first step that `withFetchWord` sets up after reset runs the word: F1 without an operand. -/
theorem test_withFetchWord :
    reads (step (State.reset.withFetchWord 64 0x1000000004000000)) = some (0, 0, true) := by decide

/-! ## The assembler (R55, R57, R58) -/

theorem test_assemble_splice :
    assemble "splice2.s16 4, 0x4, 1, 0b111 ; rule R55" = some 0x6A00000102000087 := by decide
theorem test_assemble_flip : assemble "flip 8" = some 0x1000000004000000 := by decide
theorem test_assemble_needs_suffix : assemble "getmsb 0, 8" = none := by decide
theorem test_assemble_forbids_suffix : assemble "flip.u8 8" = none := by decide
theorem test_assemble_refuses_start : assemble "getmsb.u8 65536, 8" = none := by decide
/-- R59: an alias has the word of its mnemonic; on a line it is no mnemonic (log entry 14). -/
theorem test_alias :
    some (encode (DocumentCall.getMsbBits ⟨false, .bits8⟩ 24 8).command) = assemble "getmsb.u8 24, 8" ∧
      assemble "get_msb_bits.u8 24, 8" = none := by decide
theorem test_assemble_admits_zero_width : assemble "getmsb.u8 0, 0" = some 0x3000000000000000 := by decide

/-! ## Witnesses: the hypotheses of the statements can be met, at the ends of their ranges -/

theorem witness_DecodeOfEncode :
    WellFormed (.flip 127) ∧ WellFormed (.subset 65535 127 127) ∧ WellFormed (.getmsb ⟨true, .bits8⟩ 65535 0) ∧
    WellFormed (.getlsb ⟨false, .bits64⟩ 0 127) ∧ WellFormed (.splice ⟨true, .bits32⟩ 65535 127 65535 127) ∧
    WellFormed (.splice2 ⟨false, .bits16⟩ 0 0 0 0) := by decide

/-- F15: a word with every ignored field set, and the canonical word it differs from there only. -/
theorem witness_IgnoredFields :
    decode 0x1E003FFFC47FFFFF = .ok (.flip 8) ∧
    ((0x1E003FFFC47FFFFF#64 ^^^ 0x1000000004000000#64) &&& 0xF1FFC0003F800000#64 = 0) := by decide
theorem witness_IgnoredFields_subset :
    decode 0x2000000104000010 = .ok (.subset 4 8 16) ∧
    ((0x2000000104000010#64 ^^^ 0x2E000001047FFF90#64) &&& 0xF1FFFFFFFF80007F#64 = 0) := by decide
theorem witness_IgnoredFields_getmsb :
    decode 0x3000000004000000 = .ok (.getmsb ⟨false, .bits8⟩ 0 8) ∧
    ((0x3000000004000000#64 ^^^ 0x30000000047FFFFF#64) &&& 0xFFFFFFFFFF800000#64 = 0) := by decide
theorem witness_IgnoredFields_getlsb :
    decode 0x4000000004000000 = .ok (.getlsb ⟨false, .bits8⟩ 0 8) ∧
    ((0x4000000004000000#64 ^^^ 0x40000000047FFFFF#64) &&& 0xFFFFFFFFFF800000#64 = 0) := by decide
theorem witness_IgnoredFields_splice :
    decode 0x5200000204000C08 = .ok (.splice ⟨false, .bits16⟩ 8 8 24 8) ∧
    decode 0x6A00000102000087 = .ok (.splice2 ⟨true, .bits16⟩ 4 4 1 7) := by decide

/-- X5 and X4: an accepted word with a reserved bit, and one with opcode 15. -/
theorem witness_ReservedWords :
    (present (sample 0x3000400004000000 0 b4 [])).ports.rst = false ∧
    (present (sample 0x3000400004000000 0 b4 [])).ports.cmdValid = true ∧
    (0x3000400004000000#64 &&& 0x01FFC00000000000#64 ≠ 0) ∧ 7 ≤ (0xF000000000000000#64 >>> 60).toNat := by
  decide

theorem witness_AssembledCommands :
    assembleLine "flip 127".toList = some (some (.flip 127)) := by decide

theorem witness_StepRuns :
    (present (sample 0x1000000004000000 1 [] [])).ports.rst = false ∧
    (present (sample 0x1000000004000000 1 [] [])).ports.cmdValid = true ∧
    decode (present (sample 0x1000000004000000 1 [] [])).ports.cmd = .ok (.flip 8) := by decide

/-- The three kinds of edge of R119. -/
theorem witness_StepFollows :
    (present { sample 0 0 [] [] with rst := true }).ports.rst = true ∧
    ((present (sample 0 0 [] [])).ports.rst = false ∧ (present (sample 0 0 [] [])).ports.cmdValid = true) ∧
    (State.reset.ports.rst = false ∧ State.reset.ports.cmdValid = false) := by decide

/-- A reset edge out of a state with a reserved `STATUS`, as before the first reset. -/
theorem witness_ResetEdge :
    ({ present { sample 0 0 [] [] with rst := true } with status := 7 } : State).ports.rst = true := by decide

theorem witness_RvalidMarks :
    step State.reset = .next (advancePorts (idleEdge State.reset)) ∧
    (advancePorts (idleEdge State.reset)).rvalid = false ∧ State.reset.ports.rst = false := ⟨rfl, rfl, rfl⟩

theorem witness_EdgeTakesNext : step State.reset = .next (advancePorts (idleEdge State.reset)) := rfl

/-- Two states with different registers and the same inputs. -/
theorem witness_ResultsDepend :
    let s := present (sample 0x1000000004000000 1 [] [])
    let s' : State := { s with res := 5, status := 2 }
    s ≠ s' ∧ s.config = s'.config ∧ s.ports = s'.ports ∧ s.ports.rst = false ∧ s.ports.cmdValid = true := by
  decide

/-- A fault before the command in one run, nothing before it in the other. -/
theorem witness_EarlierEdge :
    let p := sample 0x1000000004000000 1 [] []
    let s : State := { present (sample 0 0 [] []) with schedule := [p] }
    let s' : State := { present Ports.idle with schedule := [p] }
    s.config = s'.config ∧ s.schedule = p :: [] ∧ s'.schedule = p :: [] ∧ p.rst = false ∧
      p.cmdValid = true := by decide

/-- Three idle edges after a fault. -/
theorem witness_ResultHolds :
    let s : State := { present Ports.idle with schedule := [Ports.idle, Ports.idle] }
    3 ≤ s.schedule.length + 1 ∧
      ∀ p ∈ (s.ports :: s.schedule).take 3, p.rst = false ∧ p.cmdValid = false := by decide

/-- A run of three samples: a reset, a command, a fault. -/
theorem witness_RunFolds :
    let s : State := { present { Ports.idle with rst := true } with
      schedule := [sample 0x1000000004000000 1 [] [], sample 0 0 [] []] }
    3 ≤ s.schedule.length + 1 := by decide

/-- A state that meets the invariant and is not the reset state, with buffers, and its step. -/
theorem witness_EveryStepKeeps :
    let s := present (sample 0x1000000004000000 1 b4 b10)
    s.inv = true ∧ ∃ t, step s = .next t := ⟨by decide, _, rfl⟩

theorem witness_WrittenStatus :
    let s : State := { present (sample 0x1000000000000000 1 [] []) with status := 7 }
    (s.ports.rst = true ∨ s.ports.cmdValid = true) ∧ ∃ t, step s = .next t := ⟨by decide, _, rfl⟩

theorem witness_ExecAnswers :
    let s := present (sample 0 0xABCD b4 b10)
    (∃ t, exec (.flip 64) s = .next t) ∧ (∃ t, exec (.subset 4 8 16) s = .next t) ∧
    (∃ t, exec (.getmsb ⟨true, .bits16⟩ 10 12) s = .next t) ∧
    (∃ t, exec (.getlsb ⟨true, .bits16⟩ 10 12) s = .next t) ∧
    (∃ t, exec (.splice ⟨true, .bits16⟩ 0 4 8 4) s = .next t) ∧
    (∃ t, exec (.splice2 ⟨true, .bits16⟩ 0 4 8 4) s = .next t) :=
  ⟨⟨_, rfl⟩, ⟨_, rfl⟩, ⟨_, rfl⟩, ⟨_, rfl⟩, ⟨_, rfl⟩, ⟨_, rfl⟩⟩

/-- The first and the last bit index of a buffer of four bytes. -/
theorem witness_BufferIndices : 0 < Buffer.lbits ⟨Memory.ofBytes b4, 4⟩ ∧ 31 < Buffer.lbits ⟨Memory.ofBytes b4, 4⟩ ∧
    31 % 8 < 8 ∧ (0x01234567 : Nat) < 2 ^ (8 * 4) := by decide

/-- A span of 64 bits that ends on the buffer's last bit, and one of 1 bit. -/
theorem witness_Span :
    (1 ≤ 64 ∧ 64 ≤ 64 ∧ 16 + 64 ≤ Buffer.lbits ⟨Memory.ofBytes b10, 10⟩) ∧
    (1 ≤ 1 ∧ 1 ≤ 64 ∧ 79 + 1 ≤ Buffer.lbits ⟨Memory.ofBytes b10, 10⟩) := by decide

/-- R34: two buffers that differ outside the touched bytes only, for a span over bytes 1 and 2. -/
theorem witness_TouchedBytes :
    (12 + 8 - 1) / 8 = 2 ∧ 12 / 8 = 1 ∧
    ∀ k ≤ 2, 1 ≤ k →
      Buffer.byte ⟨Memory.ofBytes b4, 4⟩ k = Buffer.byte ⟨Memory.ofBytes [9, 0x23, 0x45, 8], 4⟩ k := by decide

/-- R76: a byte, two adjoining spans, the two buffers of (c), a buffer of 64 bits and one of 8. -/
theorem witness_LawsOfMsbSpans :
    3 < Buffer.elen ⟨Memory.ofBytes b4, 4⟩ ∧
    (1 ≤ 8 ∧ 1 ≤ 24 ∧ 8 + 24 ≤ 64 ∧ 0 + 8 + 24 ≤ Buffer.lbits ⟨Memory.ofBytes b4, 4⟩) ∧
    (∀ j < 2, Buffer.bit ⟨Memory.ofBytes [0x01, 0x80], 2⟩ (7 + j) = Buffer.bit ⟨Memory.ofBytes [0x03], 1⟩ (6 + j)) ∧
    (1 ≤ Buffer.lbits ⟨[], 8⟩ ∧ Buffer.lbits ⟨[], 8⟩ ≤ 64) ∧ (1 ≤ Buffer.lbits ⟨[], 1⟩) := by decide

/-- R70: `10101` as a signed byte, a full-width value, one bit; and the widths of (g). -/
theorem witness_LawsOfSignExtension :
    (1 ≤ 5 ∧ 5 ≤ resultWidth ⟨true, .bits8⟩ ∧ 21 < 2 ^ 5) ∧
    (8 ≤ resultWidth ⟨false, .bits8⟩ ∧ 255 < 2 ^ 8) ∧ (1 ≤ resultWidth ⟨true, .bits64⟩ ∧ 1 < 2 ^ 1) ∧
    resultWidth ⟨true, .bits8⟩ < resultWidth ⟨true, .bits16⟩ := by decide

theorem witness_Flip : (1 ≤ 1 ∧ 1 ≤ 64) ∧ (1 ≤ 64 ∧ 64 ≤ 64) ∧ BitVec.toNat 0x15#64 < 2 ^ 5 := by decide

theorem witness_FlipTwice :
    let s := present (sample 0 0xF6 [] [])
    ∃ t u, exec (.flip 5) s = .next t ∧
      exec (.flip 5) { t with ports := { t.ports with opa := t.res } } = .next u := ⟨_, _, rfl, rfl⟩

theorem witness_Subset :
    (1 ≤ 8 ∧ 16 ≤ 64 ∧ 4 + 8 ≤ 16) ∧ (1 ≤ 1 ∧ 64 ≤ 64 ∧ 63 + 1 ≤ 64) ∧ (1 ≤ 4 ∧ 2 + 4 ≤ 8) := by decide

/-- The largest span, under a length above `NB`. -/
theorem witness_Extract_longest :
    let s := present { sample 0 0 b10 [] with len1 := 15 }
    1 ≤ 64 ∧ 64 ≤ resultWidth ⟨true, .bits64⟩ ∧ 16 + 64 ≤ 8 * min s.ports.len1 s.config.nb := by decide

/-- One bit, the last of the buffer. -/
theorem witness_Extract_lastBit :
    let s := present (sample 0 0 b4 [])
    1 ≤ 1 ∧ 1 ≤ resultWidth ⟨true, .bits8⟩ ∧ 31 + 1 ≤ 8 * min s.ports.len1 s.config.nb := by decide

/-- SPLICE of widths 63 and 1, both spans to the end of ten bytes; SPLICE2 with its second span at the end of
four; and the same widths under R92, for both kinds of result type. -/
theorem witness_Splice :
    let s := present (sample 0 0 b10 b4)
    1 ≤ 63 ∧ 1 ≤ 1 ∧ 63 + 1 ≤ resultWidth ⟨true, .bits64⟩ ∧ 63 + 1 ≤ resultWidth ⟨false, .bits64⟩ ∧
      17 + 63 ≤ 8 * min s.ports.len1 s.config.nb ∧ 79 + 1 ≤ 8 * min s.ports.len1 s.config.nb ∧
      31 + 1 ≤ 8 * min s.ports.len2 s.config.nb ∧
      17 + 63 ≤ s.buffer1.lbits ∧ 79 + 1 ≤ s.buffer1.lbits := by decide

/-- R103: the first width above each capacity. -/
theorem witness_WidthFaults :
    64 < 65 ∧ resultWidth ⟨true, .bits8⟩ < 9 ∧ 1 ≤ 5 ∧ 1 ≤ 4 ∧ resultWidth ⟨true, .bits8⟩ < 5 + 4 := by decide

/-- R102: the first bit past each end: GETMSB and GETLSB, both spans of SPLICE, the second of SPLICE2 (the first
is as SPLICE's), SUBSET. -/
theorem witness_RangeFaults :
    let s := present (sample 0 0 b4 [0xCD])
    (8 ≤ resultWidth ⟨false, .bits8⟩ ∧ 8 * min s.ports.len1 s.config.nb < 25 + 8) ∧
    (4 + 4 ≤ resultWidth ⟨false, .bits8⟩ ∧ 8 * min s.ports.len1 s.config.nb < 29 + 4) ∧
    8 * min s.ports.len2 s.config.nb < 5 + 4 ∧ (1 ≤ 8 ∧ 1 ≤ 16 ∧ 16 ≤ 64 ∧ 16 < 9 + 8) := by decide

/-- R48: other values on every port that each command ignores. -/
theorem witness_IgnoredPorts :
    let s := present (sample 0 0xABCD b4 b10)
    let p : Ports := { sample 1 0xABCD [] [] with rst := true }
    let q : Ports := sample 1 0 b4 []
    let r : Ports := sample 1 0 b4 b10
    p ≠ s.ports ∧ p.opa = s.ports.opa ∧ q ≠ s.ports ∧ q.buf1 = s.ports.buf1 ∧ q.len1 = s.ports.len1 ∧
      r ≠ s.ports ∧ r.buf1 = s.ports.buf1 ∧ r.len1 = s.ports.len1 ∧ r.buf2 = s.ports.buf2 ∧
      r.len2 = s.ports.len2 := by decide

/-- R26, R27: effective lengths 4 and 1, cut by the length port in one state and by `NB` in the other, and other
bytes on the first lane past each. -/
theorem witness_BytesPast :
    let s := present { sample 0 7 b10 [0xCD, 0xEF] with len1 := 4, len2 := 1 }
    let s' : State := { present (sample 0 7 [0x01, 0xFF, 0xEE, 0xDD, 0x33] [0xCD]) with config := ⟨4⟩ }
    min s.ports.len1 s.config.nb = 4 ∧ min s.ports.len2 s.config.nb = 1 ∧
      s'.ports.buf1.read 4 ≠ s.ports.buf1.read 4 ∧ s'.ports.buf2.read 1 ≠ s.ports.buf2.read 1 ∧
      s'.ports.opa = s.ports.opa ∧ min s'.ports.len1 s'.config.nb = min s.ports.len1 s.config.nb ∧
      min s'.ports.len2 s'.config.nb = min s.ports.len2 s.config.nb ∧
      (∀ k < min s.ports.len1 s.config.nb, s'.ports.buf1.read k = s.ports.buf1.read k) ∧
      (∀ k < min s.ports.len2 s.config.nb, s'.ports.buf2.read k = s.ports.buf2.read k) := by decide

/-- F5 and F6. -/
theorem witness_OperandBits : BitVec.toNat 0xF6#64 % 2 ^ 5 = BitVec.toNat 0x16#64 % 2 ^ 5 := by decide

theorem witness_Dual :
    let s := present (sample 0 0 b4 [])
    4 + 12 ≤ s.buffer1.lbits ∧ 20 + 12 ≤ s.buffer1.lbits ∧ 3 < s.buffer1.elen := by decide

/-- R71: `10101` on `A8` is -11. -/
theorem witness_SignedExtraction :
    let s := present (sample 0 0 [0xA8] [])
    1 ≤ 5 ∧ 5 ≤ resultWidth ⟨true, .bits8⟩ ∧ 0 + 5 ≤ s.buffer1.lbits ∧ -(2 ^ (5 - 1) : Int) ≤ -11 ∧
      (-11 : Int) ≤ 2 ^ (5 - 1) - 1 ∧
      ∀ j < 5, s.buffer1.bit (0 + j) = ((-11 : Int) % 2 ^ 5).toNat.testBit (5 - 1 - j) := by decide

/-- R96: the same bytes on both ports. -/
theorem witness_EqualBuffers :
    let s := present (sample 0 0 b4 b4)
    s.buffer1.elen = s.buffer2.elen ∧ ∀ k < s.buffer1.elen, s.buffer1.byte k = s.buffer2.byte k := by decide

end Sys2Proof.Tests
end

section
/-! PROOFS. The statements of 10_state.md: the three registers, the invariant, reset and power-on. First what
one edge does to the registers, then what the invariant asks, then the width of a result, and last the
statements themselves. -/

namespace Sys2Proof.Machine

/-! ## What one edge does to the registers -/

/-- Everything a command can do: it delivers a result that its inputs determine, or enters a fault. -/
theorem exec_cases {i : Instr} {s t : State} (h : exec i s = .next t) :
    (∃ v, commandResult i s.ports.opa s.buffer1 s.buffer2 = .ok v ∧ t = deliver v s) ∨
    (∃ f, commandResult i s.ports.opa s.buffer1 s.buffer2 = .error f ∧ t = raiseFault f s) :=
  complete_cases (exec_eq_complete i s ▸ h)

/-- An edge loads the registers in one of four ways, by the ports it samples, and then the host presents its
next port values: `step_cases` with the commands and the illegal word put together. -/
theorem step_loads {s t : State} (h : step s = .next t) :
    (s.ports.rst = true ∧ t = advancePorts (resetEdge s)) ∨
    (s.ports.rst = false ∧ s.ports.cmdValid = true ∧
      ((∃ v, t = advancePorts (deliver v s)) ∨ ∃ f, t = advancePorts (raiseFault f s))) ∨
    (s.ports.rst = false ∧ s.ports.cmdValid = false ∧ t = advancePorts (idleEdge s)) := by
  obtain hreset | ⟨hr, hc, ⟨i, u, -, hu, rfl⟩ | ⟨-, -, rfl⟩⟩ | hidle := step_cases h
  · exact .inl hreset
  · obtain ⟨v, -, rfl⟩ | ⟨f, -, rfl⟩ := exec_cases hu
    · exact .inr (.inl ⟨hr, hc, .inl ⟨v, rfl⟩⟩)
    · exact .inr (.inl ⟨hr, hc, .inr ⟨f, rfl⟩⟩)
  · exact .inr (.inl ⟨hr, hc, .inr ⟨_, rfl⟩⟩)
  · exact .inr (.inr hidle)

/-- A reset edge takes a step, whatever command is presented (R120). -/
theorem step_of_rst {s : State} (h : s.ports.rst = true) :
    step s = .next (advancePorts (resetEdge s)) := by
  simp [step, h, afterEdge]

/-- The end of a command loads the pair that `Exec` returns for its outcome (R99). -/
theorem afterEdge_complete (r : Except FaultCode Word) (s : State) :
    ∃ t, afterEdge (complete r s) = .next t ∧ (t.status, t.res) = statusAndResult r ∧ t.rvalid = true := by
  cases r with
  | ok v => exact ⟨advancePorts (deliver v s), rfl, by simp [statusAndResult]⟩
  | error f => exact ⟨advancePorts (raiseFault f s), rfl, by simp [statusAndResult]⟩

/-- An edge that accepts a command word, illegal ones among them, loads what `Exec` returns for the inputs of
that edge (R99, R119). -/
theorem step_of_cmdValid {s : State} (hr : s.ports.rst = false) (hc : s.ports.cmdValid = true) :
    ∃ t, step s = .next t ∧
      (t.status, t.res) = execFunction s.ports.cmd s.ports.opa s.buffer1 s.buffer2 ∧ t.rvalid = true := by
  cases hd : decode s.ports.cmd with
  | ok i =>
    have hstep : step s = afterEdge (complete (commandResult i s.ports.opa s.buffer1 s.buffer2) s) := by
      simp [step, hr, hc, hd, exec_eq_complete]
    simpa only [hstep, execFunction, hd] using afterEdge_complete _ s
  | error e =>
    have hstep : step s = afterEdge (complete (.error .illegalCommand) s) := by
      simp [step, hr, hc, hd]
    simpa only [hstep, execFunction, hd] using afterEdge_complete _ s

/-! ## The invariant -/

namespace State

theorem registersLegal_iff {s : State} :
    s.registersLegal = true ↔ s.status.toNat ≤ 4 ∧ (s.status ≠ 0 → s.res = 0) := by
  simp [registersLegal, Decidable.or_iff_not_imp_left]

theorem inputsLegal_iff {s : State} :
    s.inputsLegal = true ↔
      configWf s.config = true ∧ s.ports.wf s.config = true ∧ ∀ p ∈ s.schedule, p.wf s.config = true := by
  simp [inputsLegal, and_assoc]

theorem inv_iff {s : State} : s.inv = true ↔ s.registersLegal = true ∧ s.inputsLegal = true := by
  simp [inv]

end State

section Loads
variable (s : State) (v : Word) (f : FaultCode)

/-- The codes of R101 are 1 to 4. -/
theorem FaultCode.code_le : f.code.toNat ≤ 4 := by cases f <;> decide

theorem resetEdge_registersLegal : (resetEdge s).registersLegal = true :=
  State.registersLegal_iff.2 (by simp)

theorem deliver_registersLegal : (deliver v s).registersLegal = true :=
  State.registersLegal_iff.2 (by simp [okStatus])

theorem raiseFault_registersLegal : (raiseFault f s).registersLegal = true :=
  State.registersLegal_iff.2 (by simp [FaultCode.code_le])

/-- An idle edge writes neither `RES` nor `STATUS`, so it keeps their legality and cannot establish it. -/
@[simp] theorem idleEdge_registersLegal : (idleEdge s).registersLegal = s.registersLegal := rfl

@[simp] theorem resetEdge_inputsLegal : (resetEdge s).inputsLegal = s.inputsLegal := rfl
@[simp] theorem deliver_inputsLegal : (deliver v s).inputsLegal = s.inputsLegal := rfl
@[simp] theorem raiseFault_inputsLegal : (raiseFault f s).inputsLegal = s.inputsLegal := rfl
@[simp] theorem idleEdge_inputsLegal : (idleEdge s).inputsLegal = s.inputsLegal := rfl

@[simp] theorem advancePorts_registersLegal : (advancePorts s).registersLegal = s.registersLegal := by
  simp [State.registersLegal]

/-- The next port values are legal: a scheduled sample by the invariant, a free one by its construction. -/
theorem advancePorts_inputsLegal {s : State} (h : s.inputsLegal = true) :
    (advancePorts s).inputsLegal = true := by
  obtain ⟨hconfig, -, hschedule⟩ := State.inputsLegal_iff.1 h
  refine State.inputsLegal_iff.2 ⟨by simpa using hconfig, ?_, ?_⟩
  · rw [advancePorts_config, advancePorts_ports]
    cases hs : s.schedule with
    | nil => exact hostPorts_wf _ _
    | cons p ps => exact hschedule p (by simp [hs])
  · rw [advancePorts_config, advancePorts_schedule]
    exact fun p hp => hschedule p (List.mem_of_mem_tail hp)

end Loads

/-- An edge that writes `STATUS` leaves legal registers, whatever they were before. -/
theorem step_writes_registersLegal {s t : State} (h : step s = .next t)
    (hw : s.ports.rst = true ∨ s.ports.cmdValid = true) : t.registersLegal = true := by
  obtain ⟨-, rfl⟩ | ⟨-, -, ⟨v, rfl⟩ | ⟨f, rfl⟩⟩ | ⟨hr, hc, -⟩ := step_loads h
  · rw [advancePorts_registersLegal, resetEdge_registersLegal]
  · rw [advancePorts_registersLegal, deliver_registersLegal]
  · rw [advancePorts_registersLegal, raiseFault_registersLegal]
  · simp [hr, hc] at hw

theorem step_keeps_registersLegal {s t : State} (hs : s.registersLegal = true) (h : step s = .next t) :
    t.registersLegal = true := by
  obtain ⟨hr, -⟩ | ⟨-, hc, -⟩ | ⟨-, -, rfl⟩ := step_loads h
  · exact step_writes_registersLegal h (.inl hr)
  · exact step_writes_registersLegal h (.inr hc)
  · simpa using hs

/-- No edge writes an input, so only the host's next port values are to be looked at. -/
theorem step_keeps_inputsLegal {s t : State} (hs : s.inputsLegal = true) (h : step s = .next t) :
    t.inputsLegal = true := by
  obtain ⟨-, rfl⟩ | ⟨-, -, ⟨v, rfl⟩ | ⟨f, rfl⟩⟩ | ⟨-, -, rfl⟩ := step_loads h <;>
    exact advancePorts_inputsLegal (by simpa using hs)

/-- Ports of zeros are port values, for every `NB`. -/
theorem Ports.idle_wf (c : Config) : Ports.idle.wf c = true := by
  simp [Ports.wf, Ports.idle, Memory.wf, Memory.below]

/-! ## The width of a result -/

/-- The number of low bits of `RES` that a command without a fault may set (R14): the width of the output
sequence (R61), or the width of the result type (R45). -/
def resultBits : Instr → Nat
  | .flip n => n
  | .subset _ length _ => length
  | .getmsb t _ _ => resultWidth t
  | .getlsb t _ _ => resultWidth t
  | .splice t _ _ _ _ => resultWidth t
  | .splice2 t _ _ _ _ => resultWidth t

theorem toNat_ofNat_lt {x k : Nat} (h : x < 2 ^ k) : (BitVec.ofNat 64 x).toNat < 2 ^ k := by
  rw [BitVec.toNat_ofNat]
  exact (Nat.mod_le _ _).trans_lt h

/-- Extension fills up to the result width and no further (R69). -/
theorem ext_lt {u n w : Nat} (signed : Bool) (hu : u < 2 ^ n) (hn : n ≤ w) : ext u n w signed < 2 ^ w := by
  have hpow : 2 ^ n ≤ 2 ^ w := Nat.pow_le_pow_right (by omega) hn
  unfold ext
  split <;> omega

theorem typedResult_lt {t : ResultType} {u n : Nat} (hu : u < 2 ^ n) (hn : n ≤ resultWidth t) :
    (typedResult t u n).toNat < 2 ^ resultWidth t :=
  toNat_ofNat_lt (ext_lt t.signed hu hn)

section Outcomes
variable {v : Word}

theorem flipResult_lt {n : Nat} {opa : Word} (h : flipResult n opa = .ok v) : v.toNat < 2 ^ n := by
  unfold flipResult at h
  split_ifs at h
  cases h
  exact toNat_ofNat_lt (flipBits_lt opa n)

theorem subsetResult_lt {offset length n : Nat} {opa : Word}
    (h : subsetResult offset length n opa = .ok v) : v.toNat < 2 ^ length := by
  unfold subsetResult at h
  split_ifs at h
  cases h
  exact toNat_ofNat_lt (subsetBits_lt opa offset length)

theorem getmsbResult_lt {t : ResultType} {start width : Nat} {b : Buffer}
    (h : getmsbResult t start width b = .ok v) : v.toNat < 2 ^ resultWidth t := by
  unfold getmsbResult at h
  split_ifs at h with _ hw
  cases h
  exact typedResult_lt (span_lt _ _ _) (not_lt.1 hw)

theorem getlsbResult_lt {t : ResultType} {start width : Nat} {b : Buffer}
    (h : getlsbResult t start width b = .ok v) : v.toNat < 2 ^ resultWidth t := by
  unfold getlsbResult at h
  split_ifs at h with _ hw
  cases h
  exact typedResult_lt (span_lt _ _ _) (not_lt.1 hw)

theorem spliceResult_lt {t : ResultType} {start1 width1 start2 width2 : Nat} {b1 b2 : Buffer}
    (h : spliceResult t start1 width1 start2 width2 b1 b2 = .ok v) : v.toNat < 2 ^ resultWidth t := by
  unfold spliceResult at h
  split_ifs at h with _ hw
  cases h
  exact typedResult_lt (cat_lt (span_lt _ _ _) (span_lt _ _ _)) (not_lt.1 hw)

theorem commandResult_lt {i : Instr} {opa : Word} {b1 b2 : Buffer}
    (h : commandResult i opa b1 b2 = .ok v) : v.toNat < 2 ^ resultBits i := by
  cases i with
  | flip n => exact flipResult_lt h
  | subset offset length n => exact subsetResult_lt h
  | getmsb t start width => exact getmsbResult_lt h
  | getlsb t start width => exact getlsbResult_lt h
  | splice t start1 width1 start2 width2 => exact spliceResult_lt h
  | splice2 t start1 width1 start2 width2 => exact spliceResult_lt h

end Outcomes

/-- After a command `RES` fits the width of its result; a fault leaves 0, which fits every width. -/
theorem exec_res_lt {i : Instr} {s t : State} (h : exec i s = .next t) :
    t.res.toNat < 2 ^ resultBits i := by
  obtain ⟨v, hv, rfl⟩ | ⟨f, -, rfl⟩ := exec_cases h
  · exact commandResult_lt hv
  · exact Nat.two_pow_pos _

/-! ## The statements -/

/-- Settles O18: the registers and the inputs are each kept by every edge. -/
theorem everyStepKeepsTheInvariant : Obligations.EveryStepKeepsTheInvariant := by
  intro s t hs h
  obtain ⟨hregs, hinputs⟩ := State.inv_iff.1 hs
  exact State.inv_iff.2 ⟨step_keeps_registersLegal hregs h, step_keeps_inputsLegal hinputs h⟩

/-- Settles O20: each of the three loads that write `STATUS` leaves legal registers. -/
theorem writtenStatusIsLegalAndFaultsCarryNoResult :
    Obligations.WrittenStatusIsLegalAndFaultsCarryNoResult :=
  fun _ _ h hw => State.registersLegal_iff.1 (step_writes_registersLegal h hw)

/-- Settles O21: the statement's bound for each command is `resultBits`. -/
theorem resIsZeroAboveTheResultWidth : Obligations.ResIsZeroAboveTheResultWidth := by
  intro i s t h
  have hres := exec_res_lt h
  cases i <;> exact hres

/-- Settles O10, by the equation of a reset edge. -/
theorem resetEdgeClearsTheRegisters : Obligations.ResetEdgeClearsTheRegisters :=
  ⟨fun _ h => ⟨_, step_of_rst h, by simp⟩, rfl, rfl, rfl⟩

/-- Settles O11, by the four loads: a command sets `RVALID`, a reset and an idle edge clear it, and the idle
edge holds the other two registers. -/
theorem rvalidMarksAcceptedCommands : Obligations.RvalidMarksAcceptedCommands := by
  intro s t h
  obtain ⟨hr, rfl⟩ | ⟨hr, hc, ⟨v, rfl⟩ | ⟨f, rfl⟩⟩ | ⟨hr, hc, rfl⟩ := step_loads h
  · simp [hr]
  · simp [hr, hc]
  · simp [hr, hc]
  · simp [hc]

/-- Settles O14: `Exec` is a function of the command word, the operand and the two buffers, which the sampled
ports and `NB` determine. -/
theorem resultsDependOnTheSampledInputsAlone : Obligations.ResultsDependOnTheSampledInputsAlone := by
  intro s s' hconfig hports hr hc
  have hbuffer1 : s.buffer1 = s'.buffer1 := by simp only [State.buffer1, hconfig, hports]
  have hbuffer2 : s.buffer2 = s'.buffer2 := by simp only [State.buffer2, hconfig, hports]
  obtain ⟨t, ht, hload, -⟩ := step_of_cmdValid hr hc
  obtain ⟨t', ht', hload', -⟩ := step_of_cmdValid (hports ▸ hr) (hports ▸ hc)
  have hsame : (t.status, t.res) = (t'.status, t'.res) := by
    rw [hload, hload', hports, hbuffer1, hbuffer2]
  obtain ⟨hstatus, hres⟩ := Prod.mk.inj hsame
  exact ⟨t, t', ht, ht', hres, hstatus⟩

/-- Settles O19: the registers are those of a reset edge, and the ports are idle. -/
theorem invariantHoldsAtReset : Obligations.InvariantHoldsAtReset :=
  State.inv_iff.2 ⟨resetEdge_registersLegal State.reset,
    State.inputsLegal_iff.2 ⟨by decide, Ports.idle_wf _, by simp [State.reset]⟩⟩

/-- Settles O53: the power-on edge is a reset edge, and a reset edge overwrites all three registers, so states
that differ in them alone load the same. -/
theorem runsFromPowerOnStartAtAResetEdge : Obligations.RunsFromPowerOnStartAtAResetEdge := by
  intro c p schedule res status rvalid
  have hforget : resetEdge { State.powerOn c p schedule with res := res, status := status, rvalid := rvalid } =
      resetEdge (State.powerOn c p schedule) := rfl
  refine ⟨_, step_of_rst rfl, by simp, by simp, by simp, by simp, ?_⟩
  rw [step_of_rst rfl, hforget]

end Sys2Proof.Machine
end

section
/-! PROOFS. The statements of 20_memory.md: the buffer as one number under both addressing conventions, the two
forms of a span and the bytes it touches, and what the effective length hides. First the facts about a buffer,
then what a command writes, then the statements themselves. -/

namespace Sys2Proof.Machine

/-! ## Numbers made of bits and of bytes -/

/-- `bitsValue` as the sum of its bits, each with its weight (R32). -/
theorem bitsValue_eq_sum (f : Nat → Bool) (n : Nat) :
    bitsValue f n = ∑ i ∈ Finset.range n, (f i).toNat * 2 ^ i := by
  induction n with
  | zero => rfl
  | succ n ih => rw [bitsValue, ih, Finset.sum_range_succ, Nat.add_comm]

namespace Buffer
variable {b c : Buffer}

/-- One byte more shifts what was read up by a byte and adds that byte, R31. -/
theorem memRead_succ (b : Buffer) (k n : Nat) :
    b.memRead k (n + 1) = b.memRead k n * 2 ^ 8 + (b.byte (k + n)).toNat := by
  rw [memRead, ← Nat.shiftLeft_add_eq_or_of_lt (b.byte (k + n)).isLt, Nat.shiftLeft_eq]

/-- The bytes read from `k` on as one big-endian number. -/
theorem memRead_eq_sum (b : Buffer) (k n : Nat) :
    b.memRead k n = ∑ j ∈ Finset.range n, (b.byte (k + j)).toNat * 2 ^ (8 * (n - 1 - j)) := by
  induction n with
  | zero => rfl
  | succ n ih =>
    rw [memRead_succ, ih, Finset.sum_range_succ, Finset.sum_mul]
    congr 1
    · refine Finset.sum_congr rfl fun j hj => ?_
      have hj := Finset.mem_range.1 hj
      rw [Nat.mul_assoc, ← pow_add, show 8 * (n - 1 - j) + 8 = 8 * (n + 1 - 1 - j) by omega]
    · simp

/-- Lanes that carry the bytes of a packed port read back as that port, R26. -/
theorem memRead_eq_port {nb port : Nat}
    (hbyte : ∀ k < nb, b.byte k = BitVec.ofNat 8 (port >>> (8 * (nb - 1 - k)))) :
    b.memRead 0 nb = port % 2 ^ (8 * nb) := by
  refine Nat.eq_of_testBit_eq fun i => ?_
  rw [testBit_memRead, Nat.testBit_mod_two_pow]
  by_cases hi : i < 8 * nb
  · have hbit : i % 8 < 8 := Nat.mod_lt _ (by omega)
    have hweight : 8 * (nb - 1 - (0 + (nb - 1 - i / 8))) + i % 8 = i := by omega
    simp only [hi, hbyte (0 + (nb - 1 - i / 8)) (by omega), BitVec.getLsbD_ofNat, hbit,
      Nat.testBit_shiftRight, hweight, decide_true, Bool.true_and]
  · simp [hi]

/-! ## The two addressing conventions -/

/-- LSB index `q` counts bytes from the last one and bits from the least significant one, R30. -/
theorem lsbit_eq {q : Nat} (hq : q < b.lbits) :
    b.lsbit q = (b.byte (b.elen - 1 - q / 8)).getLsbD (q % 8) := by
  unfold lbits at hq
  have hlane : (8 * b.elen - 1 - q) / 8 = b.elen - 1 - q / 8 := by omega
  have hbit : 7 - (8 * b.elen - 1 - q) % 8 = q % 8 := by omega
  rw [lsbit, bit, lbits, hlane, hbit]

/-- The bit of weight `2^q` of the whole buffer is the one at LSB index `q`, R29 and R30. -/
theorem testBit_value {q : Nat} (hq : q < b.lbits) : b.value.testBit q = b.lsbit q := by
  have hq' : q < 8 * b.elen := hq
  simp [lsbit_eq hq, value, testBit_memRead, hq']

/-- MSB index `p` is LSB index `LBITS - 1 - p`, R30. -/
theorem lsbit_sub {p : Nat} (hp : p < b.lbits) : b.lsbit (b.lbits - 1 - p) = b.bit p := by
  rw [lsbit, show b.lbits - 1 - (b.lbits - 1 - p) = p by omega]

/-- The number of a buffer is below `2^LBITS`, R29. -/
theorem value_lt (b : Buffer) : b.value < 2 ^ b.lbits := memRead_lt b 0 b.elen

/-- A packed port at full length is the number of its buffer, R29. -/
theorem value_ofPort {nb port : Nat} (h : port < 2 ^ (8 * nb)) :
    value ⟨Memory.ofPort nb port, nb⟩ = port := by
  have hread : memRead ⟨Memory.ofPort nb port, nb⟩ 0 nb = port % 2 ^ (8 * nb) :=
    memRead_eq_port fun k hk => by
      simp [byte, Memory.ofPort, Memory.read_ofBytes, portBytes, List.getD, hk]
  rw [value, hread, Nat.mod_eq_of_lt h]

/-! ## Spans -/

/-- The sum form of a span, R32: `bitsValue` counts from the last bit, the sum from the first. -/
theorem span_eq_sum (b : Buffer) (s n : Nat) :
    b.span s n = ∑ j ∈ Finset.range n, (b.bit (s + j)).toNat * 2 ^ (n - 1 - j) := by
  rw [span, bitsValue_eq_sum, ← Finset.sum_range_reflect]
  refine Finset.sum_congr rfl fun j hj => ?_
  have hj := Finset.mem_range.1 hj
  rw [show n - 1 - (n - 1 - j) = j by omega]

/-- The shift form of a span, R32: bit `i` of it is the bit `LBITS - s - n + i` of the buffer. -/
theorem span_eq_shift {s n : Nat} (h : s + n ≤ b.lbits) :
    b.span s n = (b.value >>> (b.lbits - s - n)) % 2 ^ n := by
  refine Nat.eq_of_testBit_eq fun i => ?_
  rw [testBit_span, Nat.testBit_mod_two_pow, Nat.testBit_shiftRight]
  by_cases hi : i < n
  · rw [testBit_value (by omega), lsbit,
      show b.lbits - 1 - (b.lbits - s - n + i) = s + (n - 1 - i) by omega]
  · simp [hi]

/-- Two spans of the same buffer bits are equal. -/
theorem span_congr {s n : Nat} (h : ∀ p, s ≤ p → p < s + n → b.bit p = c.bit p) :
    b.span s n = c.span s n :=
  bitsValue_congr fun i hi => h _ (by omega) (by omega)

/-- Lanes that carry the same byte carry the same bits. -/
theorem bit_congr {p : Nat} (h : b.byte (p / 8) = c.byte (p / 8)) : b.bit p = c.bit p := by
  rw [bit, bit, h]

/-- A span depends on the bytes it touches alone, R34. -/
theorem span_eq_of_touched {s n : Nat}
    (h : ∀ k, s / 8 ≤ k → k ≤ (s + n - 1) / 8 → b.byte k = c.byte k) : b.span s n = c.span s n :=
  span_congr fun _ hs hn => bit_congr (h _ (by omega) (by omega))

/-! ## What a command can see of a buffer -/

/-- Two buffers hold the same bytes: one effective length, and equal lanes below it. The lanes from there on
may differ. -/
structure SameBytes (b c : Buffer) : Prop where
  elen_eq : b.elen = c.elen
  byte_eq : ∀ k < b.elen, b.byte k = c.byte k

namespace SameBytes

theorem lbits_eq (h : SameBytes b c) : b.lbits = c.lbits := congrArg (8 * ·) h.elen_eq

/-- Within the effective length every span of the two is the same. -/
theorem span_eq (h : SameBytes b c) {s n : Nat} (hsn : s + n ≤ b.lbits) : b.span s n = c.span s n := by
  unfold lbits at hsn
  exact span_congr fun _ _ hp => bit_congr (h.byte_eq _ (by omega))

end SameBytes
end Buffer

section Outcomes
variable {b b' c c' : Buffer}

/-- The range check of GETMSB stands before its span, so what it answers is in the bytes of the buffer. -/
theorem getmsbResult_congr (h : b.SameBytes b') (t : ResultType) (start width : Nat) :
    getmsbResult t start width b = getmsbResult t start width b' := by
  unfold getmsbResult
  rw [← h.lbits_eq]
  split_ifs with hzero hwide hrange
  · rfl
  · rfl
  · rfl
  · rw [h.span_eq (by omega)]

/-- As for GETMSB: the span at MSB index `L - s - n` lies within the effective length. -/
theorem getlsbResult_congr (h : b.SameBytes b') (t : ResultType) (start width : Nat) :
    getlsbResult t start width b = getlsbResult t start width b' := by
  unfold getlsbResult
  rw [← h.lbits_eq]
  split_ifs with hzero hwide hrange
  · rfl
  · rfl
  · rfl
  · rw [h.span_eq (by omega)]

/-- Both range checks of a splice stand before its spans. -/
theorem spliceResult_congr (hb : b.SameBytes b') (hc : c.SameBytes c') (t : ResultType)
    (start1 width1 start2 width2 : Nat) :
    spliceResult t start1 width1 start2 width2 b c = spliceResult t start1 width1 start2 width2 b' c' := by
  unfold spliceResult
  rw [← hb.lbits_eq, ← hc.lbits_eq]
  split_ifs with hzero hwide hrange
  · rfl
  · rfl
  · rfl
  · rw [hb.span_eq (by omega), hc.span_eq (by omega)]

/-- The outcome of every command is a function of `OPA` and of the bytes of the two buffers. -/
theorem commandResult_congr (hb : b.SameBytes b') (hc : c.SameBytes c') (i : Instr) (opa : Word) :
    commandResult i opa b c = commandResult i opa b' c' := by
  cases i with
  | flip n => rfl
  | subset offset length n => rfl
  | getmsb t start width => exact getmsbResult_congr hb t start width
  | getlsb t start width => exact getlsbResult_congr hb t start width
  | splice t start1 width1 start2 width2 => exact spliceResult_congr hb hb t start1 width1 start2 width2
  | splice2 t start1 width1 start2 width2 => exact spliceResult_congr hb hc t start1 width1 start2 width2

end Outcomes

/-! ## What a command writes -/

/-- The end of a command writes the three registers, with the pair of R99 in two of them, and nothing else. -/
theorem complete_eq_next (r : Except FaultCode Word) (s : State) :
    complete r s =
      .next { s with res := (statusAndResult r).2, status := (statusAndResult r).1, rvalid := true } := by
  cases r with
  | ok v => rfl
  | error f => rfl

/-- The next state of a command whose outcome is known. -/
theorem exec_eq_next {i : Instr} {s : State} {r : Except FaultCode Word}
    (h : commandResult i s.ports.opa s.buffer1 s.buffer2 = r) :
    exec i s =
      .next { s with res := (statusAndResult r).2, status := (statusAndResult r).1, rvalid := true } := by
  rw [exec_eq_complete, h, complete_eq_next]

/-! ## The statements -/

/-- Settles O23: the sum by the recursion of `MemRead`, the bits by the LSB index of each, the packed port lane by
lane. -/
theorem bufferIsOneBigEndianNumber : Obligations.BufferIsOneBigEndianNumber := by
  refine ⟨fun b => ⟨?_, b.value_lt, fun p hp => ?_⟩, fun _ _ => Buffer.value_ofPort⟩
  · simpa [Buffer.value] using b.memRead_eq_sum 0 b.elen
  · rw [Buffer.testBit_value (by omega), Buffer.lsbit_sub hp]

/-- Settles O24: LSB index `q` is bit `q mod 8` of the byte `q div 8` places before the last. -/
theorem lsbIndexIsTheWeightInTheBuffer : Obligations.LsbIndexIsTheWeightInTheBuffer := by
  intro b q hq
  refine ⟨(Buffer.testBit_value hq).symm, rfl, fun hlast => ?_, ?_⟩
  · have hlane : b.elen - 1 - q / 8 = b.elen - 1 := by omega
    rw [Buffer.lsbit_eq hq, hlane, Nat.mod_eq_of_lt hlast]
  · exact Buffer.lsbit_sub (p := 0) (by omega)

/-- Settles O25: the two forms, and the end bits by `testBit_span`. -/
theorem spanHasTwoEqualForms : Obligations.SpanHasTwoEqualForms := by
  intro b s n hn _ hsn
  refine ⟨b.span_eq_sum s n, Buffer.span_eq_shift hsn, span_lt b s n, ?_, ?_⟩
  · have htop : n - 1 < n := by omega
    simp [testBit_span, htop]
  · have hlow : 0 < n := hn
    have hlast : s + (n - 1 - 0) = s + n - 1 := by omega
    rw [testBit_span, hlast, decide_eq_true hlow, Bool.true_and]

/-- Settles O27: the touched bytes decide the span, and the counts are arithmetic of `s mod 8` and `n`. -/
theorem spanDependsOnTheTouchedBytesOnly : Obligations.SpanDependsOnTheTouchedBytesOnly := by
  intro b c s n hn hn64
  have hlbits : b.lbits = 8 * b.elen := rfl
  exact ⟨Buffer.span_eq_of_touched, by omega, by omega, by omega, by omega, by omega⟩

/-- Settles O41: the two states present buffers of the same bytes, so every command has one outcome for both. -/
theorem bytesPastTheEffectiveLengthDoNotMatter :
    Obligations.BytesPastTheEffectiveLengthDoNotMatter := by
  intro i s s' hopa hlen1 hlen2 hbytes1 hbytes2
  have h1 : s.buffer1.SameBytes s'.buffer1 := ⟨hlen1.symm, fun k hk => (hbytes1 k hk).symm⟩
  have h2 : s.buffer2.SameBytes s'.buffer2 := ⟨hlen2.symm, fun k hk => (hbytes2 k hk).symm⟩
  have hsame : commandResult i s'.ports.opa s'.buffer1 s'.buffer2 =
      commandResult i s.ports.opa s.buffer1 s.buffer2 := by
    rw [hopa, commandResult_congr h1 h2]
  exact ⟨_, _, exec_eq_next rfl, exec_eq_next hsame⟩

/-- Settles O22: the next state differs in the registers alone, so the command meets the same inputs again. -/
theorem commandsWriteNoBufferAndRepeat : Obligations.CommandsWriteNoBufferAndRepeat := by
  intro i s t h
  obtain rfl := Host.Outcome.next.inj ((exec_eq_next rfl).symm.trans h)
  exact ⟨fun _ => ⟨rfl, rfl⟩, rfl, rfl, rfl, rfl, rfl, exec_eq_next rfl⟩

end Sys2Proof.Machine
end

section
/-! PROOFS. The statements of 30_encoding.md: decoder and encoder against each other, the fields a command
ignores, the rows of the opcode table, illegal words, and what the assembler accepts. A word is handled field by
field throughout; `decode_eq_ok_iff` says once what the decoder does. First the fields, then the decoder, then
outcomes, then the statements themselves. -/

namespace Sys2Proof

/-! ## A word and its fields -/

theorem field_and (w v : Word) (lo len : Nat) :
    field (w &&& v) lo len = field w lo len &&& field v lo len := by
  simp [field, Nat.shiftRight_and_distrib, Nat.and_mod_two_pow]

/-- The fields of format C are all of the word (R41). -/
theorem packWord_fields (w : Word) :
    packWord (opOf w) (sOf w) (szOf w) (rsvOf w) (start1Of w) (width1Of w) (start2Of w) (width2Of w) = w := by
  have fit : FieldsFit (opOf w) (sOf w) (szOf w) (rsvOf w) (start1Of w) (width1Of w) (start2Of w)
      (width2Of w) := by constructor <;> exact field_lt w _ _
  have hw := w.isLt
  refine BitVec.eq_of_toNat_eq ?_
  rw [packWord_toNat fit]
  simp only [opOf, sOf, szOf, rsvOf, start1Of, width1Of, start2Of, width2Of, field,
    Nat.shiftRight_eq_div_pow]
  omega

/-- Words whose difference lies outside a mask are equal under it. -/
theorem and_eq_and_of_xor_and_eq_zero {w v m : Word} (h : (w ^^^ v) &&& m = 0) : w &&& m = v &&& m := by
  refine BitVec.eq_of_getLsbD_eq fun k _ => ?_
  have hbit : ((w ^^^ v) &&& m).getLsbD k = false := h ▸ BitVec.getLsbD_zero
  cases hm : m.getLsbD k with
  | false => simp [hm]
  | true => simpa [hm] using hbit

/-- A field that is kept, or cleared. -/
def keep (b : Bool) (x : Nat) : Nat := if b then x else 0

@[simp] theorem keep_true (x : Nat) : keep true x = x := rfl
@[simp] theorem keep_false (x : Nat) : keep false x = 0 := rfl

theorem keep_le (b : Bool) (x : Nat) : keep b x ≤ x := by cases b <;> simp

/-- A mask that is all ones or all zeros over a field keeps that field or clears it. -/
theorem field_and_of_mask {m : Word} {b : Bool} {lo len : Nat} (h : field m lo len = keep b (2 ^ len - 1))
    (w : Word) : field (w &&& m) lo len = keep b (field w lo len) := by
  rw [field_and, h]
  cases b with
  | false => exact Nat.and_zero _
  | true => exact (Nat.and_two_pow_sub_one_eq_mod _ _).trans (Nat.mod_eq_of_lt (field_lt w lo len))

/-! ## Sets of fields, and what a command uses -/

/-- A set of fields of format C; `rtype` is the pair (`S`, `SZ`), R46. -/
structure FieldSet where
  op : Bool
  rtype : Bool
  rsv : Bool
  start1 : Bool
  width1 : Bool
  start2 : Bool
  width2 : Bool

namespace FieldSet
variable (u : FieldSet) (w : Word)

/-- The word with every bit of the fields in the set. -/
def mask : Word :=
  packWord (keep u.op 15) (keep u.rtype 1) (keep u.rtype 3) (keep u.rsv 2047) (keep u.start1 65535)
    (keep u.width1 127) (keep u.start2 65535) (keep u.width2 127)

theorem mask_fits :
    FieldsFit (keep u.op 15) (keep u.rtype 1) (keep u.rtype 3) (keep u.rsv 2047) (keep u.start1 65535)
      (keep u.width1 127) (keep u.start2 65535) (keep u.width2 127) := by
  constructor <;> exact Nat.lt_succ_of_le (keep_le _ _)

@[simp] theorem opOf_and_mask : opOf (w &&& u.mask) = keep u.op (opOf w) :=
  field_and_of_mask (opOf_packWord u.mask_fits) w
@[simp] theorem sOf_and_mask : sOf (w &&& u.mask) = keep u.rtype (sOf w) :=
  field_and_of_mask (sOf_packWord u.mask_fits) w
@[simp] theorem szOf_and_mask : szOf (w &&& u.mask) = keep u.rtype (szOf w) :=
  field_and_of_mask (szOf_packWord u.mask_fits) w
@[simp] theorem rsvOf_and_mask : rsvOf (w &&& u.mask) = keep u.rsv (rsvOf w) :=
  field_and_of_mask (rsvOf_packWord u.mask_fits) w
@[simp] theorem start1Of_and_mask : start1Of (w &&& u.mask) = keep u.start1 (start1Of w) :=
  field_and_of_mask (start1Of_packWord u.mask_fits) w
@[simp] theorem width1Of_and_mask : width1Of (w &&& u.mask) = keep u.width1 (width1Of w) :=
  field_and_of_mask (width1Of_packWord u.mask_fits) w
@[simp] theorem start2Of_and_mask : start2Of (w &&& u.mask) = keep u.start2 (start2Of w) :=
  field_and_of_mask (start2Of_packWord u.mask_fits) w
@[simp] theorem width2Of_and_mask : width2Of (w &&& u.mask) = keep u.width2 (width2Of w) :=
  field_and_of_mask (width2Of_packWord u.mask_fits) w

/-- A masked word is the word of the fields in the set, the others zero. -/
theorem and_mask_eq_packWord :
    w &&& u.mask =
      packWord (keep u.op (opOf w)) (keep u.rtype (sOf w)) (keep u.rtype (szOf w)) (keep u.rsv (rsvOf w))
        (keep u.start1 (start1Of w)) (keep u.width1 (width1Of w)) (keep u.start2 (start2Of w))
        (keep u.width2 (width2Of w)) := by
  simpa using (packWord_fields (w &&& u.mask)).symm

/-- `OP` and `RSV`, which select the row, R54. -/
def row : FieldSet := ⟨true, false, true, false, false, false, false⟩

/-- `RSV` alone. -/
def reserved : FieldSet := ⟨false, false, true, false, false, false, false⟩

/-- Every field. -/
def all : FieldSet := ⟨true, true, true, true, true, true, true⟩

/-- The fields of FLIP, R48. -/
def flip : FieldSet := ⟨true, false, true, false, true, false, false⟩

/-- The fields of SUBSET, R48. -/
def subset : FieldSet := ⟨true, false, true, true, true, false, true⟩

/-- The fields of GETMSB and GETLSB, R48. -/
def extract : FieldSet := ⟨true, true, true, true, true, false, false⟩

/-! The masks as they stand in the opcode table and in the statements. -/

theorem mask_row : row.mask = 0xF1FFC00000000000#64 := by decide
theorem mask_reserved : reserved.mask = 0x01FFC00000000000#64 := by decide
theorem mask_all : all.mask = BitVec.allOnes 64 := by decide
theorem mask_flip : flip.mask = 0xF1FFC0003F800000#64 := by decide
theorem mask_subset : subset.mask = 0xF1FFFFFFFF80007F#64 := by decide
theorem mask_extract : extract.mask = 0xFFFFFFFFFF800000#64 := by decide

end FieldSet

/-- The fields that a command uses: `OP`, `RSV` and those of R48. -/
def Instr.usedFields : Instr → FieldSet
  | .flip _ => .flip
  | .subset _ _ _ => .subset
  | .getmsb _ _ _ => .extract
  | .getlsb _ _ _ => .extract
  | .splice _ _ _ _ _ => .all
  | .splice2 _ _ _ _ _ => .all

@[simp] theorem Instr.usedFields_op (i : Instr) : i.usedFields.op = true := by cases i <;> rfl
@[simp] theorem Instr.usedFields_rsv (i : Instr) : i.usedFields.rsv = true := by cases i <;> rfl

/-! ## Result types -/

theorem resultTypeOf_signed_toNat (w : Word) : (resultTypeOf w).signed.toNat = sOf w := by
  have hs : sOf w < 2 := field_lt w 59 1
  rw [resultTypeOf]
  interval_cases sOf w <;> rfl

theorem resultTypeOf_size_code (w : Word) : (resultTypeOf w).size.code = szOf w := by
  have hz : szOf w < 4 := field_lt w 57 2
  rw [resultTypeOf]
  interval_cases szOf w <;> rfl

/-- The type packed in a word is the type read from it. -/
theorem resultTypeOf_packWord {t : ResultType} {op rsv start1 width1 start2 width2 : Nat}
    (h : FieldsFit op t.signed.toNat t.size.code rsv start1 width1 start2 width2) :
    resultTypeOf (packWord op t.signed.toNat t.size.code rsv start1 width1 start2 width2) = t := by
  rw [resultTypeOf, sOf_packWord h, szOf_packWord h, Size.ofCode_code]
  cases t with
  | mk signed size => cases signed <;> rfl

/-! ## The decoder -/

/-- The command of the same row with the operands that a word holds. -/
def Instr.reread (w : Word) : Instr → Instr
  | .flip _ => .flip (width1Of w)
  | .subset _ _ _ => .subset (start1Of w) (width1Of w) (width2Of w)
  | .getmsb _ _ _ => .getmsb (resultTypeOf w) (start1Of w) (width1Of w)
  | .getlsb _ _ _ => .getlsb (resultTypeOf w) (start1Of w) (width1Of w)
  | .splice _ _ _ _ _ =>
    .splice (resultTypeOf w) (start1Of w) (width1Of w) (start2Of w) (width2Of w)
  | .splice2 _ _ _ _ _ =>
    .splice2 (resultTypeOf w) (start1Of w) (width1Of w) (start2Of w) (width2Of w)

@[simp] theorem Instr.opcode_reread (w : Word) (i : Instr) : (i.reread w).opcode = i.opcode := by
  cases i <;> rfl

@[simp] theorem Instr.reread_reread (w v : Word) (i : Instr) : (i.reread v).reread w = i.reread w := by
  cases i <;> rfl

/-- What the decoder does (R53): a word selects a command exactly when no reserved bit is set, its opcode is the
command's, and its operand fields hold the command's operands. -/
theorem decode_eq_ok_iff {w : Word} {i : Instr} :
    decode w = .ok i ↔ rsvOf w = 0 ∧ opOf w = i.opcode ∧ i.reread w = i := by
  constructor
  · intro h
    unfold decode at h
    split at h
    · cases h
    · next hrsv =>
      have hrsv : rsvOf w = 0 := not_not.1 hrsv
      split at h <;> cases h <;> exact ⟨hrsv, ‹_›, rfl⟩
  · rintro ⟨hrsv, hop, hi⟩
    rw [← hi]
    cases i <;> simp only [Instr.opcode] at hop <;> simp [decode, hrsv, hop, Instr.reread]

theorem Instr.opcode_bounds (i : Instr) : 1 ≤ i.opcode ∧ i.opcode ≤ 6 := by
  cases i <;> simp [Instr.opcode]

/-- Each of the opcodes 1 to 6 is some command's, R47. -/
theorem Instr.exists_opcode_eq {k : Nat} (h1 : 1 ≤ k) (h6 : k ≤ 6) : ∃ i : Instr, i.opcode = k := by
  interval_cases k
  · exact ⟨.flip 0, rfl⟩
  · exact ⟨.subset 0 0 0, rfl⟩
  · exact ⟨.getmsb default 0 0, rfl⟩
  · exact ⟨.getlsb default 0 0, rfl⟩
  · exact ⟨.splice default 0 0 0 0, rfl⟩
  · exact ⟨.splice2 default 0 0 0 0, rfl⟩

/-- The illegal words, R49 and R50. -/
theorem decode_eq_error_iff {w : Word} :
    (∃ e, decode w = .error e) ↔ rsvOf w ≠ 0 ∨ opOf w = 0 ∨ 7 ≤ opOf w := by
  constructor
  · rintro ⟨e, he⟩
    by_contra hlegal
    obtain ⟨i, hi⟩ := Instr.exists_opcode_eq (k := opOf w) (by omega) (by omega)
    have hok : decode w = .ok (i.reread w) := decode_eq_ok_iff.2 ⟨by omega, by simp [hi], by simp⟩
    rw [hok] at he
    cases he
  · intro hillegal
    cases hd : decode w with
    | error e => exact ⟨e, rfl⟩
    | ok i =>
      obtain ⟨hrsv, hop, -⟩ := decode_eq_ok_iff.1 hd
      have hi := i.opcode_bounds
      omega

/-! ## Decoding what was encoded -/

/-- Every command's canonical word selects the command's row. -/
theorem selectsRow (i : Instr) : Laws.SelectsRow.Statement i := by
  cases i with
  | flip n => exact Laws.SelectsRow.flip n
  | subset offset length n => exact Laws.SelectsRow.subset offset length n
  | getmsb t start width => exact Laws.SelectsRow.getmsb t start width
  | getlsb t start width => exact Laws.SelectsRow.getlsb t start width
  | splice t start1 width1 start2 width2 => exact Laws.SelectsRow.splice t start1 width1 start2 width2
  | splice2 t start1 width1 start2 width2 => exact Laws.SelectsRow.splice2 t start1 width1 start2 width2

/-- Operands within the bounds of R58, with a type, fit the fields. FLIP and SUBSET pack the type `u8`, zero. -/
theorem operands_fit (t : ResultType) {op start1 width1 start2 width2 : Nat} (hop : op < 16)
    (h : start1 ≤ 65535 ∧ width1 ≤ 127 ∧ start2 ≤ 65535 ∧ width2 ≤ 127) :
    FieldsFit op t.signed.toNat t.size.code 0 start1 width1 start2 width2 := by
  obtain ⟨hstart1, hwidth1, hstart2, hwidth2⟩ := h
  have hs := Bool.toNat_lt t.signed
  have hz := t.size.code_lt
  constructor <;> omega

/-- The canonical word of a well-formed command holds its operands. -/
theorem reread_encode {i : Instr} (h : WellFormed i) : i.reread (encode i) = i := by
  cases i with
  | flip n =>
    rw [wellFormed_flip] at h
    have fit := operands_fit (op := 1) (start1 := 0) (width1 := n) (start2 := 0) (width2 := 0)
      ⟨false, .bits8⟩ (by omega) (by omega)
    exact congrArg Instr.flip (width1Of_packWord fit)
  | subset offset length n =>
    rw [wellFormed_subset] at h
    have fit := operands_fit (op := 2) (start1 := offset) (width1 := length) (start2 := 0) (width2 := n)
      ⟨false, .bits8⟩ (by omega) (by omega)
    exact congr (congrArg₂ Instr.subset (start1Of_packWord fit) (width1Of_packWord fit)) (width2Of_packWord fit)
  | getmsb t start width =>
    rw [wellFormed_getmsb] at h
    have fit := operands_fit (op := 3) (start1 := start) (width1 := width) (start2 := 0) (width2 := 0) t
      (by omega) (by omega)
    simp only [Instr.reread, encode, resultTypeOf_packWord fit, start1Of_packWord fit, width1Of_packWord fit]
  | getlsb t start width =>
    rw [wellFormed_getlsb] at h
    have fit := operands_fit (op := 4) (start1 := start) (width1 := width) (start2 := 0) (width2 := 0) t
      (by omega) (by omega)
    simp only [Instr.reread, encode, resultTypeOf_packWord fit, start1Of_packWord fit, width1Of_packWord fit]
  | splice t start1 width1 start2 width2 =>
    have fit := operands_fit (op := 5) t (by omega) (wellFormed_splice.1 h)
    simp only [Instr.reread, encode, resultTypeOf_packWord fit, start1Of_packWord fit, width1Of_packWord fit,
      start2Of_packWord fit, width2Of_packWord fit]
  | splice2 t start1 width1 start2 width2 =>
    have fit := operands_fit (op := 6) t (by omega) (wellFormed_splice2.1 h)
    simp only [Instr.reread, encode, resultTypeOf_packWord fit, start1Of_packWord fit, width1Of_packWord fit,
      start2Of_packWord fit, width2Of_packWord fit]

/-- R54, R42. -/
theorem decode_encode {i : Instr} (h : WellFormed i) : decode (encode i) = .ok i := by
  obtain ⟨hop, hrsv⟩ := selectsRow i h
  exact decode_eq_ok_iff.2 ⟨hrsv, hop, reread_encode h⟩

/-- A word is decoded by recognising it as a command's canonical word. -/
theorem decode_of_eq_encode {w : Word} {i : Instr} (h : WellFormed i) (hw : encode i = w) :
    decode w = .ok i :=
  hw ▸ decode_encode h

/-! ## Encoding what was decoded -/

/-- The canonical word of the operands of `w` holds the used fields of `w` and zero in the others. -/
theorem encode_reread (w : Word) (i : Instr) :
    encode (i.reread w) =
      packWord i.opcode (keep i.usedFields.rtype (sOf w)) (keep i.usedFields.rtype (szOf w)) 0
        (keep i.usedFields.start1 (start1Of w)) (keep i.usedFields.width1 (width1Of w))
        (keep i.usedFields.start2 (start2Of w)) (keep i.usedFields.width2 (width2Of w)) := by
  cases i <;>
    simp only [Instr.reread, encode, resultTypeOf_signed_toNat, resultTypeOf_size_code] <;> rfl

theorem encode_of_decode {w : Word} {i : Instr} (h : decode w = .ok i) :
    encode i = w &&& i.usedFields.mask := by
  obtain ⟨hrsv, hop, hi⟩ := decode_eq_ok_iff.1 h
  calc encode i = encode (i.reread w) := by rw [hi]
    _ = w &&& i.usedFields.mask := by 
      rw [encode_reread, FieldSet.and_mask_eq_packWord, hrsv, hop, Instr.usedFields_op,
        Instr.usedFields_rsv, keep_true, keep_true]

/-- A command's operands lie in its used fields. -/
theorem reread_and_mask (w : Word) (i : Instr) : i.reread (w &&& i.usedFields.mask) = i.reread w := by
  cases i <;>
    simp [Instr.reread, Instr.usedFields, FieldSet.flip, FieldSet.subset, FieldSet.extract, FieldSet.all,
      resultTypeOf]

/-- Whether a word selects a command does not depend on the fields that the command ignores, R48. -/
theorem decode_and_mask_iff {w : Word} {i : Instr} :
    decode (w &&& i.usedFields.mask) = .ok i ↔ decode w = .ok i := by
  simp [decode_eq_ok_iff, reread_and_mask]

/-- A word that agrees on the fields a command uses selects that command too, R48. -/
theorem decode_of_agree {w v : Word} {i : Instr} (h : decode w = .ok i)
    (hagree : (w ^^^ v) &&& i.usedFields.mask = 0) : decode v = .ok i := by
  have hmasked := and_eq_and_of_xor_and_eq_zero hagree
  rw [← decode_and_mask_iff, ← hmasked, decode_and_mask_iff]
  exact h

/-! ## The rows of the opcode table, R54 -/

/-- The match value of a row: its opcode, every other field zero. -/
def rowMatch (op : Nat) : Word := packWord op 0 0 0 0 0 0 0

/-- A command's row mask and match value look for its opcode and for reserved bits. -/
theorem and_rowMask_eq_rowMatch_iff {w : Word} {i : Instr} :
    w &&& FieldSet.row.mask = rowMatch i.opcode ↔ rsvOf w = 0 ∧ opOf w = i.opcode := by
  constructor
  · intro h
    have fit : FieldsFit i.opcode 0 0 0 0 0 0 0 := by
      have hi := i.opcode_bounds
      constructor <;> omega
    have hrsv : rsvOf (w &&& FieldSet.row.mask) = 0 := h ▸ rsvOf_packWord fit
    have hop : opOf (w &&& FieldSet.row.mask) = i.opcode := h ▸ opOf_packWord fit
    simpa [FieldSet.row] using And.intro hrsv hop
  · rintro ⟨hrsv, hop⟩
    rw [FieldSet.and_mask_eq_packWord, hrsv, hop]
    rfl

/-- The word of a command lies in the command's row. -/
theorem rowMatch_of_decode {w : Word} {i : Instr} {op : Nat} (h : decode w = .ok i) (hop : i.opcode = op) :
    w &&& FieldSet.row.mask = rowMatch op := by
  obtain ⟨hrsv, hopOf, -⟩ := decode_eq_ok_iff.1 h
  exact hop ▸ and_rowMask_eq_rowMatch_iff.2 ⟨hrsv, hopOf⟩

/-- A word in a command's row decodes to the command of that row with the operands of the word. -/
theorem decode_of_rowMatch {w : Word} (i : Instr) (h : w &&& FieldSet.row.mask = rowMatch i.opcode) :
    decode w = .ok (i.reread w) := by
  obtain ⟨hrsv, hop⟩ := and_rowMask_eq_rowMatch_iff.1 h
  exact decode_eq_ok_iff.2 ⟨hrsv, by simpa using hop, by simp⟩

/-- `CMD[63:60]` is the opcode, R41. -/
theorem toNat_shiftRight_opcode (w : Word) : (w >>> 60).toNat = opOf w := by
  have hw := w.isLt
  rw [BitVec.toNat_ushiftRight, opOf, field, Nat.mod_eq_of_lt]
  rw [Nat.shiftRight_eq_div_pow]
  omega

theorem shiftRight_opcode_eq_zero_iff {w : Word} : w >>> 60 = 0 ↔ opOf w = 0 := by
  rw [← toNat_shiftRight_opcode, ← BitVec.toNat_inj]
  rfl

/-- No bit of `RSV = CMD[56:46]` is set, R41. -/
theorem and_rsvMask_eq_zero_iff {w : Word} : w &&& 0x01FFC00000000000#64 = 0 ↔ rsvOf w = 0 := by
  rw [← FieldSet.mask_reserved]
  constructor
  · intro h
    have hrsv : rsvOf (w &&& FieldSet.reserved.mask) = 0 := congrArg rsvOf h
    simpa [FieldSet.reserved] using hrsv
  · intro h
    simp [FieldSet.and_mask_eq_packWord, FieldSet.reserved, h, packWord]

namespace Machine

/-! ## Outcomes -/

theorem flipResult_ne_illegal (n : Nat) (opa : Word) : flipResult n opa ≠ .error .illegalCommand := by
  unfold flipResult
  split_ifs <;> simp

theorem subsetResult_ne_illegal (offset length n : Nat) (opa : Word) :
    subsetResult offset length n opa ≠ .error .illegalCommand := by
  unfold subsetResult
  split_ifs <;> simp

theorem getmsbResult_ne_illegal (t : ResultType) (start width : Nat) (b : Buffer) :
    getmsbResult t start width b ≠ .error .illegalCommand := by
  unfold getmsbResult
  split_ifs <;> simp

theorem getlsbResult_ne_illegal (t : ResultType) (start width : Nat) (b : Buffer) :
    getlsbResult t start width b ≠ .error .illegalCommand := by
  unfold getlsbResult
  split_ifs <;> simp

theorem spliceResult_ne_illegal (t : ResultType) (start1 width1 start2 width2 : Nat) (b1 b2 : Buffer) :
    spliceResult t start1 width1 start2 width2 b1 b2 ≠ .error .illegalCommand := by
  unfold spliceResult
  split_ifs <;> simp

/-- No decoded command raises `IllegalCommand`, R105. -/
theorem commandResult_ne_illegal (i : Instr) (opa : Word) (b1 b2 : Buffer) :
    commandResult i opa b1 b2 ≠ .error .illegalCommand := by
  cases i with
  | flip n => exact flipResult_ne_illegal n opa
  | subset offset length n => exact subsetResult_ne_illegal offset length n opa
  | getmsb t start width => exact getmsbResult_ne_illegal t start width b1
  | getlsb t start width => exact getlsbResult_ne_illegal t start width b1
  | splice t start1 width1 start2 width2 => exact spliceResult_ne_illegal t start1 width1 start2 width2 b1 b1
  | splice2 t start1 width1 start2 width2 => exact spliceResult_ne_illegal t start1 width1 start2 width2 b1 b2

/-- `STATUS` 4 reports `IllegalCommand` alone, R101. -/
theorem statusAndResult_fst_eq_four_iff {r : Except FaultCode Word} :
    (statusAndResult r).1 = 4 ↔ r = .error .illegalCommand := by
  cases r with
  | ok v => simp [statusAndResult, okStatus]
  | error f => cases f <;> simp [statusAndResult, FaultCode.code]

/-- `Exec` reports `IllegalCommand` for the illegal words and for no other. -/
theorem execFunction_fst_eq_four_iff {cmd opa : Word} {b1 b2 : Buffer} :
    (execFunction cmd opa b1 b2).1 = 4 ↔ ∃ e, decode cmd = .error e := by
  rw [execFunction, statusAndResult_fst_eq_four_iff]
  cases decode cmd with
  | ok i => simp [commandResult_ne_illegal]
  | error e => simp

/-- An illegal word gives no result, R105. -/
theorem execFunction_snd_of_error {cmd opa : Word} {b1 b2 : Buffer} {e : Reject}
    (h : decode cmd = .error e) : (execFunction cmd opa b1 b2).2 = 0 := by
  rw [execFunction, h]
  rfl

/-- An unsigned GETMSB that raises no fault answers its span, R74. -/
theorem getmsbResult_unsigned {z : Size} {start width : Nat} {b : Buffer} (hpos : 1 ≤ width)
    (hwide : width ≤ resultWidth ⟨false, z⟩) (hrange : start + width ≤ b.lbits) :
    getmsbResult ⟨false, z⟩ start width b = .ok (BitVec.ofNat 64 (b.span start width)) := by
  rw [getmsbResult, if_neg (by omega), if_neg (by omega), if_neg (by omega)]
  rfl

/-- The assembler keeps only commands whose operands fit, R58. -/
theorem assembleCommand_wellFormed {cs : List Char} {i : Instr} (h : assembleCommand cs = some i) :
    WellFormed i := by
  unfold assembleCommand at h
  dsimp only at h
  split at h
  · cases h
  · exact (Option.filter_eq_some_iff.1 h).2

theorem assembleLine_wellFormed {line : List Char} {i : Instr} (h : assembleLine line = some (some i)) :
    WellFormed i := by
  unfold assembleLine at h
  dsimp only at h
  split at h
  · cases h
  · obtain ⟨j, hj, hji⟩ := Option.map_eq_some_iff.1 h
    obtain rfl := Option.some.inj hji
    exact assembleCommand_wellFormed hj

/-! ## The statements -/

/-- Settles O1: the fields of the canonical word are the operands. -/
theorem decodeOfEncodeGivesTheCommand : Obligations.DecodeOfEncodeGivesTheCommand :=
  fun _ => decode_encode

/-- Settles O2: the statement's masks are those of the used fields, and the splices use every field. -/
theorem encodeOfDecodeClearsIgnoredFields : Obligations.EncodeOfDecodeClearsIgnoredFields := by
  intro w i h
  have hmask := encode_of_decode h
  cases i with
  | flip => exact hmask.trans (by rw [Instr.usedFields, FieldSet.mask_flip])
  | subset => exact hmask.trans (by rw [Instr.usedFields, FieldSet.mask_subset])
  | getmsb | getlsb => exact hmask.trans (by rw [Instr.usedFields, FieldSet.mask_extract])
  | splice | splice2 => exact hmask.trans (by rw [Instr.usedFields, FieldSet.mask_all, BitVec.and_allOnes])

/-- Settles O3: two words that agree on the used fields are one word under the mask of these. -/
theorem ignoredFieldsDoNotChangeTheCommand : Obligations.IgnoredFieldsDoNotChangeTheCommand := by
  intro w v i h hagree
  cases i with
  | flip => exact decode_of_agree h (FieldSet.mask_flip ▸ hagree)
  | subset => exact decode_of_agree h (FieldSet.mask_subset ▸ hagree)
  | getmsb | getlsb => exact decode_of_agree h (FieldSet.mask_extract ▸ hagree)
  | splice | splice2 => exact hagree ▸ h

/-- Settles O4: the mask leaves `OP` and `RSV`, which select the row, and the operands of the word are the
command's. -/
theorem rowMaskSelectsTheCommand : Obligations.RowMaskSelectsTheCommand := by
  intro w
  rw [← FieldSet.mask_row]
  refine ⟨⟨fun h => ?_, ?_⟩, ⟨fun h => ?_, ?_⟩, ⟨fun h => ?_, ?_⟩, ⟨fun h => ?_, ?_⟩, ⟨fun h => ?_, ?_⟩,
    ⟨fun h => ?_, ?_⟩⟩
  · exact ⟨_, decode_of_rowMatch (.flip 0) h⟩
  · exact fun ⟨_, h⟩ => rowMatch_of_decode (op := 1) h rfl
  · exact ⟨_, _, _, decode_of_rowMatch (.subset 0 0 0) h⟩
  · exact fun ⟨_, _, _, h⟩ => rowMatch_of_decode (op := 2) h rfl
  · exact ⟨_, _, _, decode_of_rowMatch (.getmsb default 0 0) h⟩
  · exact fun ⟨_, _, _, h⟩ => rowMatch_of_decode (op := 3) h rfl
  · exact ⟨_, _, _, decode_of_rowMatch (.getlsb default 0 0) h⟩
  · exact fun ⟨_, _, _, h⟩ => rowMatch_of_decode (op := 4) h rfl
  · exact ⟨_, _, _, _, _, decode_of_rowMatch (.splice default 0 0 0 0) h⟩
  · exact fun ⟨_, _, _, _, _, h⟩ => rowMatch_of_decode (op := 5) h rfl
  · exact ⟨_, _, _, _, _, decode_of_rowMatch (.splice2 default 0 0 0 0) h⟩
  · exact fun ⟨_, _, _, _, _, h⟩ => rowMatch_of_decode (op := 6) h rfl

/-- Settles O5: the statement's conditions are those of an illegal word, and `Exec` answers code 4 for these
alone. -/
theorem reservedWordsRaiseIllegalCommand : Obligations.ReservedWordsRaiseIllegalCommand := by
  intro s hr hc
  obtain ⟨t, hstep, hload, hrvalid⟩ := step_of_cmdValid hr hc
  have hstatus : t.status = _ := congrArg Prod.fst hload
  have hres : t.res = _ := congrArg Prod.snd hload
  have hillegal : t.status = 4 ↔ ∃ e, decode s.ports.cmd = .error e := by
    rw [hstatus, execFunction_fst_eq_four_iff]
  refine ⟨t, hstep, ?_, fun h4 => ?_⟩
  · rw [hillegal, decode_eq_error_iff, toNat_shiftRight_opcode, ne_eq, ne_eq, and_rsvMask_eq_zero_iff,
      shiftRight_opcode_eq_zero_iff]
  · obtain ⟨e, he⟩ := hillegal.1 h4
    exact ⟨hres.trans (execFunction_snd_of_error he), hrvalid⟩

/-- Settles O7: the filter of the assembler, and O1 for what passes it. -/
theorem assembledCommandsFitTheWord : Obligations.AssembledCommandsFitTheWord :=
  fun _ _ h => ⟨assembleLine_wellFormed h, decode_encode (assembleLine_wellFormed h)⟩

/-- Settles O49: no type is wider than `u64`, so both commands answer the span, which fits `RES`. -/
theorem extractMsbUnsignedReturnsSpan : Obligations.ExtractMsbUnsignedReturnsSpan := by
  intro start width z s hpos hwide hrange
  have h64 : width ≤ 64 := hwide.trans (resultWidth_le _)
  have hspan : s.buffer1.span start width < 2 ^ 64 :=
    (span_lt _ _ _).trans_le (Nat.pow_le_pow_right (by omega) h64)
  exact ⟨_, exec_eq_next (getmsbResult_unsigned hpos h64 hrange),
    exec_eq_next (getmsbResult_unsigned hpos hwide hrange), Nat.mod_eq_of_lt hspan, rfl⟩

/-- Settles O6: each word is the canonical word of its command. -/
theorem workedEncodingsDecode : Obligations.WorkedEncodingsDecode := by
  refine ⟨?_, ?_, ?_, ?_, ?_, ?_, ?_, ?_, ?_⟩ <;> exact decode_of_eq_encode (by decide) (by decide)

/-- Settles O40: the outcome of a command is a function of the ports that it does not ignore. -/
theorem ignoredPortsDoNotMatter : Obligations.IgnoredPortsDoNotMatter := by
  intro i s p hports
  have hsame : commandResult i p.opa (p.buffer1 s.config) (p.buffer2 s.config) =
      commandResult i s.ports.opa s.buffer1 s.buffer2 := by
    cases i with
    | flip | subset => simp only [commandResult, hports]
    | getmsb | getlsb | splice =>
      obtain ⟨hbuf1, hlen1⟩ := hports
      simp only [commandResult, Ports.buffer1, State.buffer1, hbuf1, hlen1]
    | splice2 =>
      obtain ⟨hbuf1, hlen1, hbuf2, hlen2⟩ := hports
      simp only [commandResult, Ports.buffer1, State.buffer1, Ports.buffer2, State.buffer2, hbuf1, hlen1,
        hbuf2, hlen2]
  exact ⟨_, _, exec_eq_next rfl, exec_eq_next (s := { s with ports := p }) hsame⟩

end Machine
end Sys2Proof
end

section
/-! PROOFS. The statements of 40_endian_reversal.md: FLIP and SUBSET. First bit sequences on the port, then the
two reorderings of bits and their laws, then what the two commands write, and last the statements themselves. -/

namespace Sys2Proof.Machine

/-! ## Bit sequences on the port -/

/-- A sequence of at most 64 bits is on the port as it stands, R61. -/
theorem toNat_ofNat_eq {x k : Nat} (hx : x < 2 ^ k) (hk : k ≤ 64) : (BitVec.ofNat 64 x).toNat = x := by
  rw [BitVec.toNat_ofNat, Nat.mod_eq_of_lt (hx.trans_le (Nat.pow_le_pow_right (by omega) hk))]

/-- Bit `i` of a sequence of at most 64 bits is port bit `i`, R61. -/
theorem getLsbD_ofNat_eq {x k : Nat} (hx : x < 2 ^ k) (hk : k ≤ 64) (i : Nat) :
    (BitVec.ofNat 64 x).getLsbD i = x.testBit i := by
  rw [← BitVec.testBit_toNat, toNat_ofNat_eq hx hk]

/-- Two operands carry one sequence of width `n` when they agree modulo `2^n`. -/
theorem getLsbD_eq_of_mod_eq {x y : Word} {n : Nat} (h : x.toNat % 2 ^ n = y.toNat % 2 ^ n) :
    ∀ i < n, x.getLsbD i = y.getLsbD i := by
  intro i hi
  have hbit := congrArg (Nat.testBit · i) h
  simpa [Nat.testBit_mod_two_pow, hi, BitVec.testBit_toNat] using hbit

section Sequences
variable {x y : Word} {o l n : Nat}

/-! ## The reversal -/

theorem getLsbD_flipBits (hn : n ≤ 64) (i : Nat) :
    (BitVec.ofNat 64 (flipBits x n)).getLsbD i = (decide (i < n) && x.getLsbD (n - 1 - i)) := by
  rw [getLsbD_ofNat_eq (flipBits_lt x n) hn, testBit_flipBits]

/-- The reversal depends on the sequence alone, R61. -/
theorem flipBits_congr (h : ∀ i < n, x.getLsbD i = y.getLsbD i) : flipBits x n = flipBits y n :=
  bitsValue_congr fun _ _ => h _ (by omega)

/-- Law (a) of R64. -/
theorem flipBits_flipBits (hn : n ≤ 64) :
    flipBits (BitVec.ofNat 64 (flipBits x n)) n = x.toNat % 2 ^ n := by
  refine Nat.eq_of_testBit_eq fun i => ?_
  rw [testBit_flipBits, getLsbD_flipBits hn, Nat.testBit_mod_two_pow, BitVec.testBit_toNat]
  by_cases hi : i < n
  · have hback : n - 1 - (n - 1 - i) = i := by omega
    have hbelow : n - 1 - i < n := by omega
    simp [hi, hback, hbelow]
  · simp [hi]

/-- The first part of law (b) of R64. -/
theorem flipBits_mod (hn : n ≤ 64) : flipBits (BitVec.ofNat 64 (x.toNat % 2 ^ n)) n = flipBits x n := by
  refine flipBits_congr (getLsbD_eq_of_mod_eq ?_)
  rw [toNat_ofNat_eq (Nat.mod_lt _ (Nat.two_pow_pos n)) hn, Nat.mod_mod]

/-- Bit `i` moves to the place `n-1-i`, law (d) of R64. -/
theorem testBit_flipBits_reversed {i : Nat} (hi : i < n) :
    (flipBits x n).testBit (n - 1 - i) = x.getLsbD i := by
  have hback : n - 1 - (n - 1 - i) = i := by omega
  have hbelow : n - 1 - i < n := by omega
  simp [testBit_flipBits, hback, hbelow]

/-- The first part of law (c) of R64: the one set bit is at the mirrored place. -/
theorem flipBits_two_pow {i : Nat} (hn : n ≤ 64) (hi : i < n) :
    flipBits (BitVec.ofNat 64 (2 ^ i)) n = 2 ^ (n - 1 - i) := by
  refine Nat.eq_of_testBit_eq fun j => ?_
  rw [testBit_flipBits, getLsbD_ofNat_eq (Nat.pow_lt_pow_right (by omega) hi) hn, Nat.testBit_two_pow,
    Nat.testBit_two_pow, ← Bool.decide_and]
  exact decide_eq_decide.2 (by omega)

/-- The second part of law (c) of R64, for every operation on single bits that keeps the zeros above the
sequence. -/
theorem flipBits_bitwise {f : Bool → Bool → Bool} {z : Word} (hf : f false false = false)
    (hz : ∀ i, z.getLsbD i = f (x.getLsbD i) (y.getLsbD i)) :
    flipBits z n = Nat.bitwise f (flipBits x n) (flipBits y n) := by
  refine Nat.eq_of_testBit_eq fun i => ?_
  rw [Nat.testBit_bitwise hf, testBit_flipBits, testBit_flipBits, testBit_flipBits, hz]
  by_cases hi : i < n
  · simp [hi]
  · simp [hi, hf]

/-- The datapath of R65: the shift drops the low bits of the 64-bit reversal, whatever the port bits above
the sequence are. -/
theorem flipBits_eq_shift (hn : n ≤ 64) : flipBits x n = flipBits x 64 >>> (64 - n) := by
  refine Nat.eq_of_testBit_eq fun i => ?_
  rw [Nat.testBit_shiftRight, testBit_flipBits, testBit_flipBits]
  by_cases hi : i < n
  · have hplace : 64 - 1 - (64 - n + i) = n - 1 - i := by omega
    have hbelow : 64 - n + i < 64 := by omega
    simp [hi, hplace, hbelow]
  · have hbelow : ¬64 - n + i < 64 := by omega
    simp [hi, hbelow]

/-! ## The run of bits -/

theorem getLsbD_subsetBits (hl : l ≤ 64) (i : Nat) :
    (BitVec.ofNat 64 (subsetBits x o l)).getLsbD i = (decide (i < l) && x.getLsbD (o + i)) := by
  rw [getLsbD_ofNat_eq (subsetBits_lt x o l) hl, testBit_subsetBits]

/-- A run within the sequence depends on the sequence alone, R61. -/
theorem subsetBits_congr (h : ∀ i < n, x.getLsbD i = y.getLsbD i) (hol : o + l ≤ n) :
    subsetBits x o l = subsetBits y o l :=
  bitsValue_congr fun _ _ => h _ (by omega)

/-- Law (b) of R67. -/
theorem subsetBits_eq_div_mod (x : Word) (o l : Nat) : subsetBits x o l = x.toNat / 2 ^ o % 2 ^ l := by
  refine Nat.eq_of_testBit_eq fun i => ?_
  rw [testBit_subsetBits, Nat.testBit_mod_two_pow, Nat.testBit_div_two_pow, BitVec.testBit_toNat, Nat.add_comm]

/-- Law (c) of R67. -/
theorem subsetBits_subsetBits {o2 l2 : Nat} (hl : l ≤ 64) (h : o2 + l2 ≤ l) :
    subsetBits (BitVec.ofNat 64 (subsetBits x o l)) o2 l2 = subsetBits x (o + o2) l2 := by
  refine bitsValue_congr fun i hi => ?_
  have hwithin : o2 + i < l := by omega
  rw [getLsbD_subsetBits hl, decide_eq_true hwithin, Bool.true_and, Nat.add_assoc]

/-- Law (d) of R67: counted from the other end the run begins at `n - o - l`. -/
theorem flipBits_subsetBits (hn : n ≤ 64) (h : o + l ≤ n) :
    flipBits (BitVec.ofNat 64 (subsetBits x o l)) l =
      subsetBits (BitVec.ofNat 64 (flipBits x n)) (n - o - l) l := by
  refine bitsValue_congr fun i hi => ?_
  have hrun : l - 1 - i < l := by omega
  have hsequence : n - o - l + i < n := by omega
  have hplace : n - 1 - (n - o - l + i) = o + (l - 1 - i) := by omega
  rw [getLsbD_subsetBits (by omega), getLsbD_flipBits hn, hplace, decide_eq_true hrun,
    decide_eq_true hsequence]

/-! ## What FLIP and SUBSET write -/

/-- The outcome of FLIP, faults included, depends on the sequence alone. -/
theorem flipResult_congr (h : ∀ i < n, x.getLsbD i = y.getLsbD i) : flipResult n x = flipResult n y := by
  rw [flipResult, flipResult, flipBits_congr h]

/-- As for FLIP: the range check of SUBSET keeps its run within the sequence. -/
theorem subsetResult_congr (h : ∀ i < n, x.getLsbD i = y.getLsbD i) (o l : Nat) :
    subsetResult o l n x = subsetResult o l n y := by
  unfold subsetResult
  split_ifs with hzero hwide hrange
  · rfl
  · rfl
  · rfl
  · rw [subsetBits_congr h (by omega)]

theorem flipResult_eq_ok (hpos : 1 ≤ n) (hn : n ≤ 64) :
    flipResult n x = .ok (BitVec.ofNat 64 (flipBits x n)) := by
  have hcap : ¬n > XW := not_lt.2 hn
  rw [flipResult, if_neg (by omega), if_neg hcap]

theorem subsetResult_eq_ok (hpos : 1 ≤ l) (hn : n ≤ 64) (h : o + l ≤ n) :
    subsetResult o l n x = .ok (BitVec.ofNat 64 (subsetBits x o l)) := by
  have hcap : ¬n > XW := not_lt.2 hn
  rw [subsetResult, if_neg (by omega), if_neg hcap, if_neg (by omega)]

end Sequences

/-- The next state of FLIP within its preconditions, R63. -/
theorem exec_flip {n : Nat} (s : State) (hpos : 1 ≤ n) (hn : n ≤ 64) :
    exec (.flip n) s =
      .next { s with res := BitVec.ofNat 64 (flipBits s.ports.opa n), status := 0, rvalid := true } :=
  exec_eq_next (i := .flip n) (s := s) (flipResult_eq_ok hpos hn)

/-- The next state of SUBSET within its preconditions, in which `n` does not occur, R66 and R67. -/
theorem exec_subset {o l n : Nat} (s : State) (hpos : 1 ≤ l) (hn : n ≤ 64) (h : o + l ≤ n) :
    exec (.subset o l n) s =
      .next { s with res := BitVec.ofNat 64 (subsetBits s.ports.opa o l), status := 0, rvalid := true } :=
  exec_eq_next (i := .subset o l n) (s := s) (subsetResult_eq_ok hpos hn h)

/-! ## The statements -/

/-- Settles O30: the word that FLIP writes is the reversal, bit by bit. -/
theorem flipReversesTheSequence : Obligations.FlipReversesTheSequence :=
  fun _ s hpos hn => ⟨_, exec_flip s hpos hn, getLsbD_flipBits hn⟩

/-- Settles O31: the word that SUBSET writes is the run, as a number by law (b) of R67 and bit by bit. -/
theorem subsetTakesTheRun : Obligations.SubsetTakesTheRun := by
  intro o l n s hpos hn h
  have hl : l ≤ 64 := by omega
  refine ⟨_, exec_subset s hpos hn h, ?_, getLsbD_subsetBits hl⟩
  rw [toNat_ofNat_eq (subsetBits_lt _ _ _) hl, subsetBits_eq_div_mod]

/-- Settles O42: the two operands carry one sequence, so both commands have one outcome for them. -/
theorem operandBitsOutsideTheSequenceDoNotMatter :
    Obligations.OperandBitsOutsideTheSequenceDoNotMatter := by
  intro s p n h
  have hbits := getLsbD_eq_of_mod_eq h
  exact ⟨⟨_, _, exec_eq_next rfl, exec_eq_next (s := { s with ports := p }) (flipResult_congr hbits)⟩,
    fun o l => ⟨_, _, exec_eq_next rfl,
      exec_eq_next (s := { s with ports := p }) (subsetResult_congr hbits o l)⟩⟩

/-- Settles O43, law by law. -/
theorem lawsOfFlip : Obligations.LawsOfFlip := by
  refine ⟨fun x n _ hn => ⟨flipBits_flipBits hn, (flipBits_mod hn).symm, flipBits_lt x n,
    fun _ => flipBits_two_pow hn, fun y => ⟨?_, ?_, ?_⟩, fun _ => testBit_flipBits_reversed⟩, by decide⟩
  · exact flipBits_bitwise rfl fun _ => BitVec.getLsbD_or
  · exact flipBits_bitwise rfl fun _ => BitVec.getLsbD_and
  · exact flipBits_bitwise rfl fun _ => BitVec.getLsbD_xor

/-- Settles O44: law (a) of R64 on the operand that the first FLIP leaves. -/
theorem flipTwiceGivesTheSequenceBack : Obligations.FlipTwiceGivesTheSequenceBack := by
  intro n s t u hpos hn ht hu
  obtain rfl := Host.Outcome.next.inj ((exec_flip s hpos hn).symm.trans ht)
  obtain rfl := Host.Outcome.next.inj ((exec_flip _ hpos hn).symm.trans hu)
  exact ⟨(toNat_ofNat_eq (flipBits_lt _ _) hn).trans (flipBits_flipBits hn), rfl⟩

/-- Settles O45, by the datapath lemma. -/
theorem flipIsAReversalAndAShift : Obligations.FlipIsAReversalAndAShift :=
  fun _ _ _ hn _ => flipBits_eq_shift hn

/-- Settles O46, law by law: (e) because the next state of SUBSET does not name the input width. -/
theorem lawsOfSubset : Obligations.LawsOfSubset := by
  refine ⟨fun x n _ _ => ?_, fun x o l n _ hn h => ?_, fun o l n n' s hpos hn hn' h h' => ?_⟩
  · rw [subsetBits_eq_div_mod, pow_zero, Nat.div_one]
  · have hl : l ≤ 64 := by omega
    exact ⟨subsetBits_eq_div_mod x o l, fun _ _ _ => subsetBits_subsetBits hl, flipBits_subsetBits hn h⟩
  · rw [exec_subset s hpos hn h, exec_subset s hpos hn' h']

end Sys2Proof.Machine
end

section
/-! PROOFS. The statements of 41_msb_extraction.md: the accumulator algorithm, the laws of spans and of sign
extension, and GETMSB. First how spans cut and join, then `Ext` as the sign extension of an `n`-bit vector, then
what GETMSB writes, and last the statements themselves. -/

namespace Sys2Proof.Machine

/-! ## Spans cut out of spans, and joined -/

namespace Buffer
variable {b c : Buffer}

/-- A shift and a mask cut a span out of a longer one: the shift drops the bits after it, the mask those before
it. -/
theorem span_shiftRight_mod {s l a n : Nat} (h : a + n ≤ l) :
    (b.span s l >>> (l - a - n)) % 2 ^ n = b.span (s + a) n := by
  refine Nat.eq_of_testBit_eq fun i => ?_
  rw [Nat.testBit_mod_two_pow, Nat.testBit_shiftRight, testBit_span, testBit_span]
  by_cases hi : i < n
  · have hwithin : l - a - n + i < l := by omega
    have hplace : s + (l - 1 - (l - a - n + i)) = s + a + (n - 1 - i) := by omega
    rw [hplace, decide_eq_true hwithin, Bool.true_and]
  · simp [hi]

/-- Whole bytes read together are the span that they cover, R31 and R32. -/
theorem memRead_eq_span (b : Buffer) (k m : Nat) : b.memRead k m = b.span (8 * k) (8 * m) := by
  refine Nat.eq_of_testBit_eq fun i => ?_
  rw [testBit_memRead, testBit_span]
  by_cases hi : i < 8 * m
  · have hlane : (8 * k + (8 * m - 1 - i)) / 8 = k + (m - 1 - i / 8) := by omega
    have hbit : 7 - (8 * k + (8 * m - 1 - i)) % 8 = i % 8 := by omega
    rw [bit, hlane, hbit]
  · simp [hi]

/-- The document's algorithm is right: it cuts the span out of the span of the bytes that cover it, R72. -/
theorem accumulatorSpan_eq_span (b : Buffer) (s n : Nat) : b.accumulatorSpan s n = b.span s n := by
  have hcover : s % 8 + n ≤ 8 * ((s % 8 + n + 7) / 8) := by omega
  rw [accumulatorSpan, memRead_eq_span, span_shiftRight_mod hcover, Nat.div_add_mod]

/-- Law (a) of R76. -/
theorem span_byte (b : Buffer) (k : Nat) : b.span (8 * k) 8 = (b.byte k).toNat := by
  calc b.span (8 * k) 8 = b.memRead k 1 := (b.memRead_eq_span k 1).symm
    _ = (b.byte k).toNat := by simp [memRead]

/-- Law (b) of R76. -/
theorem span_add (b : Buffer) (s n1 n2 : Nat) :
    b.span s (n1 + n2) = cat (b.span s n1) (b.span (s + n1) n2) n2 := by
  refine Nat.eq_of_testBit_eq fun i => ?_
  rw [testBit_cat (span_lt _ _ _), testBit_span]
  split_ifs with hi
  · have hwithin : i < n1 + n2 := by omega
    have hplace : s + (n1 + n2 - 1 - i) = s + n1 + (n2 - 1 - i) := by omega
    rw [testBit_span, hplace, decide_eq_true hwithin, decide_eq_true hi]
  · have hwithin : i < n1 + n2 ↔ i - n2 < n1 := by omega
    have hplace : n1 + n2 - 1 - i = n1 - 1 - (i - n2) := by omega
    rw [testBit_span, hplace, decide_eq_decide.2 hwithin]

/-- A span that holds the `n` low bits of a number, most significant first, is that number modulo `2^n`. -/
theorem span_eq_mod {s n v : Nat} (h : ∀ j < n, b.bit (s + j) = v.testBit (n - 1 - j)) :
    b.span s n = v % 2 ^ n := by
  rw [← bitsValue_testBit]
  refine bitsValue_congr fun i hi => ?_
  rw [h (n - 1 - i) (by omega), show n - 1 - (n - 1 - i) = i by omega]

/-- Law (c) of R76: equal bits make equal spans, wherever each begins. -/
theorem span_eq_of_bits {s s' n : Nat} (h : ∀ j < n, b.bit (s + j) = c.bit (s' + j)) :
    b.span s n = c.span s' n :=
  bitsValue_congr fun _ _ => h _ (by omega)

end Buffer

/-! ## Sign extension -/

section Extension
variable {u n w : Nat}

@[simp] theorem ext_false (u n w : Nat) : ext u n w false = u := rfl

/-- Law (a) of R70. -/
theorem ext_mod (signed : Bool) (hu : u < 2 ^ n) (hn : n ≤ w) : ext u n w signed % 2 ^ n = u := by
  refine Nat.eq_of_testBit_eq fun i => ?_
  rw [Nat.testBit_mod_two_pow, testBit_ext signed hu hn]
  by_cases hi : i < n
  · simp [hi]
  · have hclear : u.testBit i = false :=
      Nat.testBit_lt_two_pow (hu.trans_le (Nat.pow_le_pow_right (by omega) (not_lt.1 hi)))
    simp [hi, hclear]

/-- Law (d) of R70. -/
theorem ext_self (u n : Nat) (signed : Bool) : ext u n n signed = u := by simp [ext]

/-- Law (e) of R70. -/
theorem ext_one_true (hu : u < 2 ^ 1) (hw : 1 ≤ w) :
    ext u 1 w true = if u = 1 then 2 ^ w - 1 else 0 := by
  have hpow : 2 ^ 1 ≤ 2 ^ w := Nat.pow_le_pow_right (by omega) hw
  obtain rfl | rfl : u = 0 ∨ u = 1 := by omega
  · simp [ext]
  · simp [ext]; omega

theorem msb_ofNat (hpos : 1 ≤ n) : (BitVec.ofNat n u).msb = u.testBit (n - 1) := by
  have htop : n - 1 < n := by omega
  rw [BitVec.msb_eq_getLsbD_last, BitVec.getLsbD_ofNat, decide_eq_true htop, Bool.true_and]

/-- The signed multiplexer is the sign extension of the `n`-bit vector `u` (R69). -/
theorem ofNat_ext_true (hpos : 1 ≤ n) (hu : u < 2 ^ n) (hn : n ≤ w) :
    BitVec.ofNat w (ext u n w true) = (BitVec.ofNat n u).signExtend w := by
  refine BitVec.eq_of_getLsbD_eq fun i hi => ?_
  rw [BitVec.getLsbD_ofNat, testBit_ext true hu hn, BitVec.getLsbD_signExtend, BitVec.getLsbD_ofNat,
    msb_ofNat hpos]
  by_cases hin : i < n
  · simp [hin]
  · simp [hin, hi]

/-- The number that a signed result denotes is that of the `n`-bit vector `u`, in every width `w`
(R70 (c), (g)). -/
theorem toInt_ofNat_ext_true (hpos : 1 ≤ n) (hu : u < 2 ^ n) (hn : n ≤ w) :
    (BitVec.ofNat w (ext u n w true)).toInt = (BitVec.ofNat n u).toInt := by
  rw [ofNat_ext_true hpos hu hn, BitVec.toInt_signExtend_of_le hn]

/-- An `n`-bit vector denotes its unsigned value, less `2^n` where its top bit is set (00_scope.md R9). -/
theorem toInt_ofNat_eq (hpos : 1 ≤ n) (hu : u < 2 ^ n) :
    (BitVec.ofNat n u).toInt = (u : Int) - 2 ^ n * ((u.testBit (n - 1)).toNat : Int) := by
  rw [BitVec.toInt_eq_msb_cond, msb_ofNat hpos, BitVec.toNat_ofNat, Nat.mod_eq_of_lt hu]
  cases u.testBit (n - 1) <;> simp

/-- The remainder modulo `2^n` of a number in the `n`-bit signed range denotes that number. -/
theorem toInt_ofNat_emod {v : Int} (hpos : 1 ≤ n) (hlo : -(2 ^ (n - 1) : Int) ≤ v)
    (hhi : v ≤ 2 ^ (n - 1) - 1) : (BitVec.ofNat n (v % 2 ^ n).toNat).toInt = v := by
  have hnat : (v % 2 ^ n).toNat = (BitVec.ofInt n v).toNat := by
    rw [BitVec.toNat_ofInt, Nat.cast_pow, Nat.cast_ofNat]
  rw [hnat, BitVec.ofNat_toNat, BitVec.setWidth_eq, BitVec.toInt_ofInt_eq_self hpos hlo (by omega)]

/-- The signed reading of a signed result does not depend on its width, R70 (g) and R14. -/
theorem signedReading_typedResult {t : ResultType} (ht : t.signed = true) (hpos : 1 ≤ n)
    (hu : u < 2 ^ n) (hn : n ≤ resultWidth t) :
    signedReading (typedResult t u n) (resultWidth t) = (BitVec.ofNat n u).toInt := by
  rw [signedReading, typedResult, BitVec.setWidth_ofNat_of_le (resultWidth_le t), ht,
    toInt_ofNat_ext_true hpos hu hn]

end Extension

/-! ## What GETMSB writes -/

theorem getmsbResult_eq_ok {t : ResultType} {start width : Nat} {b : Buffer} (hpos : 1 ≤ width)
    (hwide : width ≤ resultWidth t) (hrange : start + width ≤ b.lbits) :
    getmsbResult t start width b = .ok (typedResult t (b.span start width) width) := by
  rw [getmsbResult, if_neg (by omega), if_neg (by omega), if_neg (by omega)]

/-- The next state of GETMSB within its preconditions, R74. -/
theorem exec_getmsb {t : ResultType} {start width : Nat} (s : State) (hpos : 1 ≤ width)
    (hwide : width ≤ resultWidth t) (hrange : start + width ≤ s.buffer1.lbits) :
    exec (.getmsb t start width) s =
      .next { s with
        res := typedResult t (s.buffer1.span start width) width, status := 0, rvalid := true } :=
  exec_eq_next (i := .getmsb t start width) (s := s) (getmsbResult_eq_ok hpos hwide hrange)

/-- The bits of an extended span: the buffer's, last one lowest, then the sign or zeros up to the result width
(R69, R74). -/
theorem getLsbD_typedResult_span {t : ResultType} {start width : Nat} (b : Buffer) (hpos : 1 ≤ width)
    (hwide : width ≤ resultWidth t) (i : Nat) :
    (typedResult t (b.span start width) width).getLsbD i =
      if i < width then b.bit (start + width - 1 - i)
      else decide (i < resultWidth t) && t.signed && b.bit start := by
  rw [getLsbD_typedResult (span_lt _ _ _) hwide, testBit_span, testBit_span]
  split_ifs with hi
  · rw [show start + (width - 1 - i) = start + width - 1 - i by omega, decide_eq_true hi, Bool.true_and]
  · simp [show width - 1 < width by omega, Bool.and_assoc]

/-! ## The statements -/

/-- Settles O26: the algorithm by `accumulatorSpan_eq_span`, the size of its accumulator by the count of bytes. -/
theorem accumulatorAlgorithmComputesSpan : Obligations.AccumulatorAlgorithmComputesSpan := by
  intro b s n _ hn _
  have hbytes : (s % 8 + n + 7) / 8 ≤ 9 := by omega
  exact ⟨b.accumulatorSpan_eq_span s n, hbytes,
    (memRead_lt _ _ _).trans_le (Nat.pow_le_pow_right (by omega) (Nat.mul_le_mul_left 8 hbytes))⟩

/-- Settles O28, law by law: (d) because the whole buffer is the bytes read from byte 0 on. -/
theorem lawsOfMsbSpans : Obligations.LawsOfMsbSpans :=
  ⟨fun b k _ => b.span_byte k, fun b s n1 n2 _ _ _ _ => b.span_add s n1 n2,
    fun _ _ _ _ _ _ _ _ _ hbits => Buffer.span_eq_of_bits hbits,
    fun b _ _ => (b.memRead_eq_span 0 b.elen).symm⟩

/-- Settles O29: the signed laws because `Ext` is the sign extension of an `n`-bit vector, which denotes one
number in every width. -/
theorem lawsOfSignExtension : Obligations.LawsOfSignExtension := by
  intro u n t hpos hn hu w r
  have hsigned (ht : t.signed = true) : (BitVec.ofNat w r).toInt = (BitVec.ofNat n u).toInt := by
    simpa only [r, ht] using toInt_ofNat_ext_true hpos hu hn
  refine ⟨ext_lt _ hu hn, ext_mod _ hu hn, fun ht => ?_, fun ht => ?_, fun hnw => ?_, fun h1 ht => ?_,
    fun t2 hsame hw => ⟨fun ht => ?_, fun ht => ?_⟩⟩
  · simp only [r, ht, ext_false]
  · rw [hsigned ht]
    exact ⟨toInt_ofNat_eq hpos hu, BitVec.le_toInt _, BitVec.toInt_le⟩
  · simp only [r, ← hnw, ext_self]
  · subst h1
    simpa only [r, ht] using ext_one_true hu hn
  · simp only [r, hsame, ht, ext_false]
  · rw [hsigned ht, hsame, ht, toInt_ofNat_ext_true hpos hu (hn.trans hw.le)]

/-- Settles O32: the word that GETMSB writes is the extended span, bit by bit. -/
theorem getmsbWritesTheExtendedSpan : Obligations.GetmsbWritesTheExtendedSpan :=
  fun _ _ _ s hpos hwide hrange =>
    ⟨_, exec_getmsb s hpos hwide hrange, getLsbD_typedResult_span s.buffer1 hpos hwide⟩

/-- Settles O48: the span holds `v mod 2^n`, which read as an `n`-bit vector is `v`, and extension keeps the
number. -/
theorem signedExtractionReturnsTheStoredValue : Obligations.SignedExtractionReturnsTheStoredValue := by
  intro t start n s v ht hpos hwide hrange hlo hhi hbits
  refine ⟨_, exec_getmsb s hpos hwide hrange, rfl, ?_⟩
  have hspan : BitVec.ofNat n (s.buffer1.span start n) = BitVec.ofNat n (v % 2 ^ n).toNat :=
    BitVec.eq_of_toNat_eq (by
      rw [BitVec.toNat_ofNat, BitVec.toNat_ofNat, Buffer.span_eq_mod hbits, Nat.mod_mod])
  rw [signedReading_typedResult ht hpos (span_lt _ _ _) hwide, hspan, toInt_ofNat_emod hpos hlo hhi]

end Sys2Proof.Machine
end

section
/-! PROOFS. The statements of 42_lsb_extraction.md. An LSB-addressed span is an MSB-addressed span of the same buffer
(R81), so what GETLSB writes is read off GETMSB: first that transform, then the value and the bits of the span it
names, then the statements themselves. -/

namespace Sys2Proof.Machine

/-! ## The coordinate transform -/

/-- The transform of R81 is its own inverse. -/
theorem complement_complement {l s n : Nat} (h : s + n ≤ l) : l - (l - s - n) - n = s := by omega

/-- The complement of a span lies in the buffer where the span does. -/
theorem complement_in_range {l s n : Nat} (h : s + n ≤ l) : l - s - n + n ≤ l := by omega

/-- GETLSB delegates to GETMSB at the complement (R81, R87). The transform keeps the width and the range, so the two
raise the same fault where one is due. -/
theorem getlsbResult_eq_getmsbResult {b : Buffer} {start width : Nat} (t : ResultType)
    (h : start + width ≤ b.lbits) :
    getlsbResult t start width b = getmsbResult t (b.lbits - start - width) width b := by
  have hrange : ¬ start + width > b.lbits := not_lt.2 h
  have hrange' : ¬ b.lbits - start - width + width > b.lbits := not_lt.2 (complement_in_range h)
  rw [getlsbResult, getmsbResult, if_neg hrange, if_neg hrange']

theorem exec_getlsb_eq_exec_getmsb {s : State} {start width : Nat} (t : ResultType)
    (h : start + width ≤ s.buffer1.lbits) :
    exec (.getlsb t start width) s = exec (.getmsb t (s.buffer1.lbits - start - width) width) s :=
  congrArg (complete · s) (getlsbResult_eq_getmsbResult t h)

theorem exec_getmsb_eq_exec_getlsb {s : State} {start width : Nat} (t : ResultType)
    (h : start + width ≤ s.buffer1.lbits) :
    exec (.getmsb t start width) s = exec (.getlsb t (s.buffer1.lbits - start - width) width) s := by
  rw [exec_getlsb_eq_exec_getmsb t (complement_in_range h), complement_complement h]

/-- The next state of GETLSB within its preconditions, R82. -/
theorem exec_getlsb {t : ResultType} {start width : Nat} (s : State) (hpos : 1 ≤ width)
    (hwide : width ≤ resultWidth t) (hrange : start + width ≤ s.buffer1.lbits) :
    exec (.getlsb t start width) s =
      .next { s with
        res := typedResult t (s.buffer1.span (s.buffer1.lbits - start - width) width) width,
        status := 0, rvalid := true } := by
  rw [exec_getlsb_eq_exec_getmsb t hrange, exec_getmsb s hpos hwide (complement_in_range hrange)]

/-! ## The span at the complement -/

namespace Buffer
variable {b : Buffer} {start width : Nat}

/-- The complement holds the bits of the buffer's number from weight `2^start` on, R84. -/
theorem span_complement (h : start + width ≤ b.lbits) :
    b.span (b.lbits - start - width) width = (b.value >>> start) % 2 ^ width := by
  rw [span_eq_shift (complement_in_range h), complement_complement h]

/-- The bit `i` places from the end of the complement is the one with LSB index `start + i`, R81. -/
theorem bit_complement {i : Nat} (h : start + width ≤ b.lbits) (hi : i < width) :
    b.bit (b.lbits - start - width + width - 1 - i) = b.lsbit (start + i) := by
  rw [lsbit, show b.lbits - start - width + width - 1 - i = b.lbits - 1 - (start + i) by omega]

/-- The first bit of the complement, its sign, has LSB index `start + width - 1`, R83. -/
theorem bit_complement_first (hpos : 1 ≤ width) (h : start + width ≤ b.lbits) :
    b.bit (b.lbits - start - width) = b.lsbit (start + width - 1) := by
  rw [lsbit, show b.lbits - start - width = b.lbits - 1 - (start + width - 1) by omega]

/-- Byte `k` and the byte `k` places before the last are complements, R85. -/
theorem byte_complement {k : Nat} (hk : k < b.elen) :
    b.lbits - 8 * k - 8 = 8 * (b.elen - 1 - k) := by
  unfold lbits
  omega

theorem byte_in_range {k : Nat} (hk : k < b.elen) : 8 * k + 8 ≤ b.lbits := by
  unfold lbits
  omega

end Buffer

/-! ## The word that is written -/

/-- Extension leaves the low `n` bits of the result as they are, R70 (b). -/
theorem typedResult_mod {t : ResultType} {u n : Nat} (hu : u < 2 ^ n) (hn : n ≤ resultWidth t) :
    (typedResult t u n).toNat % 2 ^ n = u := by
  rw [typedResult, toNat_ofNat_eq (ext_lt t.signed hu hn) (resultWidth_le t), ext_mod t.signed hu hn]

/-- An unsigned byte is written with zeros above it. -/
theorem typedResult_unsigned_byte (z : Size) (x : Byte) :
    typedResult ⟨false, z⟩ x.toNat 8 = x.setWidth 64 := by
  rw [typedResult, ext_false, BitVec.ofNat_toNat]

/-- GETMSB of byte `k` as `u8` answers it, R76 (a) and R85. -/
theorem exec_getmsb_byte {s : State} {k : Nat} (hk : k < s.buffer1.elen) :
    exec (.getmsb ⟨false, .bits8⟩ (8 * k) 8) s =
      .next { s with res := (s.buffer1.byte k).setWidth 64, status := 0, rvalid := true } := by
  have hwide : 8 ≤ resultWidth ⟨false, .bits8⟩ := by decide
  rw [exec_getmsb s (by omega) hwide (Buffer.byte_in_range hk), Buffer.span_byte, typedResult_unsigned_byte]

/-! ## The statements -/

/-- Settles O33: the word is the extended span at the complement, whose value and bits are those that R84 names. -/
theorem getlsbWritesTheExtendedSpan : Obligations.GetlsbWritesTheExtendedSpan := by
  intro t start width s hpos hwide hlen
  have hrange : start + width ≤ s.buffer1.lbits := hlen
  refine ⟨_, exec_getlsb s hpos hwide hrange, ?_, fun i => ?_⟩
  · rw [typedResult_mod (span_lt _ _ _) hwide, Buffer.span_complement hrange]
  · rw [getLsbD_typedResult_span s.buffer1 hpos hwide]
    split_ifs with hi
    · exact Buffer.bit_complement hrange hi
    · rw [Buffer.bit_complement_first hpos hrange]

/-- Settles O47: both directions are the coordinate transform, and the bytes are its case of a width of 8. -/
theorem msbAndLsbExtractionAreDual : Obligations.MsbAndLsbExtractionAreDual := by
  intro s
  refine ⟨fun t start width h => ⟨exec_getlsb_eq_exec_getmsb t h, exec_getmsb_eq_exec_getlsb t h⟩,
    fun k hk => ⟨exec_getmsb_byte hk, ?_⟩⟩
  rw [← Buffer.byte_complement hk, ← exec_getmsb_eq_exec_getlsb _ (Buffer.byte_in_range hk),
    exec_getmsb_byte hk]

end Sys2Proof.Machine
end

section
/-! PROOFS. The statements of 43_splice.md. A splice writes `Cat` of two spans, extended once: first the two halves of
`Cat` as a number and bit by bit, then what both splices write, for any two buffers, and last the statements
themselves. -/

namespace Sys2Proof.Machine

/-! ## The two halves -/

section Halves
variable {u1 u2 w1 w2 n : Nat} {t : ResultType}

/-- The low half of `Cat` is the second value, R89. -/
theorem cat_mod (h2 : u2 < 2 ^ w2) : cat u1 u2 w2 % 2 ^ w2 = u2 := by
  rw [cat, ← Nat.shiftLeft_add_eq_or_of_lt h2, Nat.shiftLeft_eq, Nat.mul_add_mod_self_right,
    Nat.mod_eq_of_lt h2]

/-- The high half of `Cat` is the first value, R89. -/
theorem cat_div (h2 : u2 < 2 ^ w2) : cat u1 u2 w2 / 2 ^ w2 = u1 := by
  rw [cat, ← Nat.shiftRight_eq_div_pow, Nat.shiftRight_or_distrib, Nat.shiftLeft_shiftRight,
    Nat.shiftRight_eq_zero _ _ h2, Nat.or_zero]

/-- An unsigned result is the value itself, R70 (b). -/
theorem typedResult_toNat_of_unsigned {u : Nat} (ht : t.signed = false) (hu : u < 2 ^ n)
    (hn : n ≤ resultWidth t) : (typedResult t u n).toNat = u := by
  rw [typedResult, ht, ext_false, toNat_ofNat_eq hu (hn.trans (resultWidth_le t))]

/-- Extension leaves the low half of a joined value in place, R92 (b). -/
theorem typedResult_cat_mod (h1 : u1 < 2 ^ w1) (h2 : u2 < 2 ^ w2) (hwide : w1 + w2 ≤ resultWidth t) :
    (typedResult t (cat u1 u2 w2) (w1 + w2)).toNat % 2 ^ w2 = u2 := by
  have hlow : 2 ^ w2 ∣ 2 ^ (w1 + w2) := pow_dvd_pow 2 (Nat.le_add_left w2 w1)
  rw [← Nat.mod_mod_of_dvd _ hlow, typedResult_mod (cat_lt h1 h2) hwide, cat_mod h2]

/-- Extension leaves the high half of a joined value in place, R92 (b). -/
theorem typedResult_cat_div_mod (h1 : u1 < 2 ^ w1) (h2 : u2 < 2 ^ w2) (hwide : w1 + w2 ≤ resultWidth t) :
    (typedResult t (cat u1 u2 w2) (w1 + w2)).toNat / 2 ^ w2 % 2 ^ w1 = u1 := by
  rw [← Nat.mod_mul_right_div_self, ← pow_add, Nat.add_comm w2, typedResult_mod (cat_lt h1 h2) hwide,
    cat_div h2]

end Halves

/-! ## Two spans joined -/

section Splices
variable {t : ResultType} {s1 w1 s2 w2 : Nat} {b c : Buffer}

/-- Two joined spans, bit by bit: the second one's bits below `w2`, the first one's above (R32, R89). -/
theorem testBit_cat_span (b c : Buffer) (s1 w1 s2 w2 i : Nat) :
    (cat (b.span s1 w1) (c.span s2 w2) w2).testBit i =
      if i < w2 then c.bit (s2 + w2 - 1 - i)
      else decide (i < w1 + w2) && b.bit (s1 + w1 + w2 - 1 - i) := by
  rw [testBit_cat (span_lt c s2 w2), testBit_span, testBit_span]
  split_ifs with hi
  · have hplace : s2 + (w2 - 1 - i) = s2 + w2 - 1 - i := by omega
    rw [hplace, decide_eq_true hi, Bool.true_and]
  · by_cases hin : i < w1 + w2
    · have hfirst : i - w2 < w1 := by omega
      have hplace : s1 + (w1 - 1 - (i - w2)) = s1 + w1 + w2 - 1 - i := by omega
      rw [hplace, decide_eq_true hfirst, decide_eq_true hin]
    · have hfirst : ¬ i - w2 < w1 := by omega
      simp [hin, hfirst]

/-- The sign of two joined spans is the first bit of the first one, R90. -/
theorem testBit_cat_span_last (b c : Buffer) (s1 s2 w2 : Nat) (hpos : 1 ≤ w1) :
    (cat (b.span s1 w1) (c.span s2 w2) w2).testBit (w1 + w2 - 1) = b.bit s1 := by
  have habove : ¬ w1 + w2 - 1 < w2 := by omega
  have hwithin : w1 + w2 - 1 < w1 + w2 := by omega
  have hplace : s1 + w1 + w2 - 1 - (w1 + w2 - 1) = s1 := by omega
  rw [testBit_cat_span, if_neg habove, hplace, decide_eq_true hwithin, Bool.true_and]

/-- The bits of two joined and extended spans (R69, R89). -/
theorem getLsbD_typedResult_cat_span (b c : Buffer) (s1 s2 : Nat) (hpos : 1 ≤ w1)
    (hwide : w1 + w2 ≤ resultWidth t) (i : Nat) :
    (typedResult t (cat (b.span s1 w1) (c.span s2 w2) w2) (w1 + w2)).getLsbD i =
      if i < w2 then c.bit (s2 + w2 - 1 - i)
      else if i < w1 + w2 then b.bit (s1 + w1 + w2 - 1 - i)
      else decide (i < resultWidth t) && t.signed && b.bit s1 := by
  rw [getLsbD_typedResult (cat_lt (span_lt _ _ _) (span_lt _ _ _)) hwide,
    testBit_cat_span_last b c s1 s2 w2 hpos, testBit_cat_span]
  by_cases hsecond : i < w2
  · have hin : i < w1 + w2 := by omega
    rw [if_pos hin, if_pos hsecond, if_pos hsecond]
  · by_cases hin : i < w1 + w2
    · simp [hsecond, hin]
    · simp [hsecond, hin, Bool.and_assoc]

/-- The signed reading of two joined spans takes its sign from the first one, R92 (c). -/
theorem signedReading_typedResult_cat_span (b c : Buffer) (s1 s2 : Nat) (ht : t.signed = true)
    (hpos : 1 ≤ w1) (hwide : w1 + w2 ≤ resultWidth t) :
    signedReading (typedResult t (cat (b.span s1 w1) (c.span s2 w2) w2) (w1 + w2)) (resultWidth t) =
      (cat (b.span s1 w1) (c.span s2 w2) w2 : Int) - 2 ^ (w1 + w2) * ((b.bit s1).toNat : Int) := by
  have hlt := cat_lt (span_lt b s1 w1) (span_lt c s2 w2)
  have hjoined : 1 ≤ w1 + w2 := by omega
  rw [signedReading_typedResult ht hjoined hlt hwide, toInt_ofNat_eq hjoined hlt,
    testBit_cat_span_last b c s1 s2 w2 hpos]

/-! ## What the splices write -/

theorem spliceResult_eq_ok (hpos1 : 1 ≤ w1) (hpos2 : 1 ≤ w2) (hwide : w1 + w2 ≤ resultWidth t)
    (hrange1 : s1 + w1 ≤ b.lbits) (hrange2 : s2 + w2 ≤ c.lbits) :
    spliceResult t s1 w1 s2 w2 b c =
      .ok (typedResult t (cat (b.span s1 w1) (c.span s2 w2) w2) (w1 + w2)) := by
  rw [spliceResult, if_neg (by omega), if_neg (by omega), if_neg (by omega)]

/-- The next state of SPLICE within its preconditions, R90. -/
theorem exec_splice (s : State) (hpos1 : 1 ≤ w1) (hpos2 : 1 ≤ w2) (hwide : w1 + w2 ≤ resultWidth t)
    (hrange1 : s1 + w1 ≤ s.buffer1.lbits) (hrange2 : s2 + w2 ≤ s.buffer1.lbits) :
    exec (.splice t s1 w1 s2 w2) s =
      .next { s with
        res := typedResult t (cat (s.buffer1.span s1 w1) (s.buffer1.span s2 w2) w2) (w1 + w2),
        status := 0, rvalid := true } :=
  exec_eq_next (i := .splice t s1 w1 s2 w2) (s := s)
    (spliceResult_eq_ok hpos1 hpos2 hwide hrange1 hrange2)

/-- The next state of SPLICE2 within its preconditions, R94. -/
theorem exec_splice2 (s : State) (hpos1 : 1 ≤ w1) (hpos2 : 1 ≤ w2) (hwide : w1 + w2 ≤ resultWidth t)
    (hrange1 : s1 + w1 ≤ s.buffer1.lbits) (hrange2 : s2 + w2 ≤ s.buffer2.lbits) :
    exec (.splice2 t s1 w1 s2 w2) s =
      .next { s with
        res := typedResult t (cat (s.buffer1.span s1 w1) (s.buffer2.span s2 w2) w2) (w1 + w2),
        status := 0, rvalid := true } :=
  exec_eq_next (i := .splice2 t s1 w1 s2 w2) (s := s)
    (spliceResult_eq_ok hpos1 hpos2 hwide hrange1 hrange2)

/-- Adjacent spans end where the two together end, so the faults coincide, and joined they are one span
(R91, R76 (b)). -/
theorem spliceResult_adjacent (t : ResultType) (s1 : Nat) (b : Buffer) (hpos1 : 1 ≤ w1) (hpos2 : 1 ≤ w2) :
    spliceResult t s1 w1 (s1 + w1) w2 b b = getmsbResult t s1 (w1 + w2) b := by
  have hzero : ¬ (w1 = 0 ∨ w2 = 0) := by omega
  have hzero' : ¬ w1 + w2 = 0 := by omega
  have hrange : s1 + w1 > b.lbits ∨ s1 + w1 + w2 > b.lbits ↔ s1 + (w1 + w2) > b.lbits := by omega
  rw [spliceResult, getmsbResult, if_neg hzero, if_neg hzero', if_congr hrange rfl rfl, b.span_add]

end Splices

/-! ## The statements -/

/-- Settles O34: the word that SPLICE writes is the two spans joined and extended, bit by bit. -/
theorem spliceWritesTheJoinedSpans : Obligations.SpliceWritesTheJoinedSpans :=
  fun _ start1 _ start2 _ s hpos1 hpos2 hwide hrange1 hrange2 =>
    ⟨_, exec_splice s hpos1 hpos2 hwide hrange1 hrange2,
      getLsbD_typedResult_cat_span s.buffer1 s.buffer1 start1 start2 hpos1 hwide⟩

/-- Settles O35: as for SPLICE, with the second span of buffer 2. -/
theorem splice2WritesTheJoinedSpansOfTwoBuffers : Obligations.Splice2WritesTheJoinedSpansOfTwoBuffers :=
  fun _ start1 _ start2 _ s hpos1 hpos2 hwide hrange1 hrange2 =>
    ⟨_, exec_splice2 s hpos1 hpos2 hwide hrange1 hrange2,
      getLsbD_typedResult_cat_span s.buffer1 s.buffer2 start1 start2 hpos1 hwide⟩

/-- Settles O50, law by law: (d) because the preconditions are those of the exchanged operands too. -/
theorem lawsOfSplice : Obligations.LawsOfSplice := by
  intro t s1 w1 s2 w2 s hpos1 hpos2 hwide hrange1 hrange2
  have hwide' : w2 + w1 ≤ resultWidth t := by omega
  have h1 := span_lt s.buffer1 s1 w1
  have h2 := span_lt s.buffer1 s2 w2
  refine ⟨_, _, exec_splice s hpos1 hpos2 hwide hrange1 hrange2,
    exec_splice s hpos2 hpos1 hwide' hrange2 hrange1, fun ht => ⟨?_, ?_⟩,
    typedResult_cat_mod h1 h2 hwide, typedResult_cat_div_mod h1 h2 hwide,
    typedResult_cat_mod h2 h1 hwide', typedResult_cat_div_mod h2 h1 hwide', fun ht => ?_⟩
  · exact typedResult_toNat_of_unsigned ht (cat_lt h1 h2) hwide
  · exact typedResult_toNat_of_unsigned ht (cat_lt h2 h1) hwide'
  · exact signedReading_typedResult_cat_span s.buffer1 s.buffer1 s1 s2 ht hpos1 hwide

/-- Settles O51: the two commands have one outcome, by `spliceResult_adjacent`. -/
theorem spliceOfAdjacentSpansIsGetmsb : Obligations.SpliceOfAdjacentSpansIsGetmsb :=
  fun t s1 _ _ s hpos1 hpos2 => congrArg (complete · s) (spliceResult_adjacent t s1 s.buffer1 hpos1 hpos2)

/-- Settles O52: the second span is read from a buffer of the same bytes. -/
theorem splice2OnEqualBuffersIsSplice : Obligations.Splice2OnEqualBuffersIsSplice := by
  intro t s1 w1 s2 w2 s helen hbytes
  have hfirst : s.buffer1.SameBytes s.buffer1 := ⟨rfl, fun _ _ => rfl⟩
  have hsecond : s.buffer1.SameBytes s.buffer2 := ⟨helen, hbytes⟩
  exact congrArg (complete · s) (spliceResult_congr hfirst hsecond t s1 w1 s2 w2).symm

end Sys2Proof.Machine
end

section
/-! PROOFS. The statements of 60_exceptions.md: which fault a command reports, the step that runs a command, and
what an edge hands to the next one. First the order of the checks, said once for every command, then what the
decoder gives and what an edge does, and last the statements themselves. -/

namespace Sys2Proof.Machine

/-! ## The order of the checks -/

/-- The outcome `r` of a command whose conditions for `ZeroWidth`, `WidthOverflow` and `OutOfRange` are `zero`,
`wide` and `past`: they are checked in that order, highest code first, and the first that holds is the outcome
(R102 to R104, R108). -/
structure FaultsInOrder (zero wide past : Prop) (r : Except FaultCode Word) : Prop where
  zeroWidth : zero → r = .error .zeroWidth
  widthOverflow : ¬ zero → wide → r = .error .widthOverflow
  outOfRange : ¬ zero → ¬ wide → past → r = .error .outOfRange
  noFault : ¬ zero → ¬ wide → ¬ past → ∃ v, r = .ok v

section Order
variable {zero wide past : Prop} {_ : Decidable zero} {_ : Decidable wide} {_ : Decidable past}

/-- The form in which the meanings write their checks. -/
theorem faultsInOrder_ite (v : Word) :
    FaultsInOrder zero wide past
      (if zero then .error .zeroWidth else if wide then .error .widthOverflow
        else if past then .error .outOfRange else .ok v) where
  zeroWidth hz := if_pos hz
  widthOverflow hz hw := by rw [if_neg hz, if_pos hw]
  outOfRange hz hw hp := by rw [if_neg hz, if_neg hw, if_pos hp]
  noFault hz hw hp := ⟨v, by rw [if_neg hz, if_neg hw, if_neg hp]⟩

/-- Checked in this order, the code reported is the highest of those whose conditions hold (R107, R108). -/
theorem FaultsInOrder.status_toNat {r : Except FaultCode Word} (h : FaultsInOrder zero wide past r) :
    (statusAndResult r).1.toNat =
      max (if zero then 3 else 0) (max (if wide then 2 else 0) (if past then 1 else 0)) := by
  by_cases hz : zero
  · rw [h.zeroWidth hz, if_pos hz]
    split_ifs <;> rfl
  · by_cases hw : wide
    · rw [h.widthOverflow hz hw, if_neg hz, if_pos hw]
      split_ifs <;> rfl
    · by_cases hp : past
      · rw [h.outOfRange hz hw hp, if_neg hz, if_neg hw, if_pos hp]
        rfl
      · obtain ⟨v, rfl⟩ := h.noFault hz hw hp
        rw [if_neg hz, if_neg hw, if_neg hp]
        rfl

end Order

/-! ## The three conditions of each command -/

/-- A width that must be positive is 0, R104. -/
def HasZeroWidth : Instr → Prop
  | .flip n => n = 0
  | .subset _ length n => length = 0 ∨ n = 0
  | .getmsb _ _ width => width = 0
  | .getlsb _ _ width => width = 0
  | .splice _ _ width1 _ width2 => width1 = 0 ∨ width2 = 0
  | .splice2 _ _ width1 _ width2 => width1 = 0 ∨ width2 = 0

/-- A width exceeds the operand port or the result type, R103. -/
def ExceedsCapacity : Instr → Prop
  | .flip n => 64 < n
  | .subset _ _ n => 64 < n
  | .getmsb t _ width => resultWidth t < width
  | .getlsb t _ width => resultWidth t < width
  | .splice t _ width1 _ width2 => resultWidth t < width1 + width2
  | .splice2 t _ width1 _ width2 => resultWidth t < width1 + width2

/-- A span reaches past the end of its buffer or bit sequence, R102. FLIP has no such condition. -/
def ReachesPastTheEnd (i : Instr) (b1 b2 : Buffer) : Prop :=
  match i with
  | .flip _ => False
  | .subset offset length n => n < offset + length
  | .getmsb _ start width => b1.lbits < start + width
  | .getlsb _ start width => b1.lbits < start + width
  | .splice _ start1 width1 start2 width2 => b1.lbits < start1 + width1 ∨ b1.lbits < start2 + width2
  | .splice2 _ start1 width1 start2 width2 => b1.lbits < start1 + width1 ∨ b2.lbits < start2 + width2

/-- FLIP writes two checks, which are three with one that never holds. -/
theorem flipResult_faultsInOrder (n : Nat) (opa : Word) :
    FaultsInOrder (n = 0) (64 < n) False (flipResult n opa) := by
  have hchecks : flipResult n opa =
      if n = 0 then .error .zeroWidth else if 64 < n then .error .widthOverflow
        else if False then .error .outOfRange else .ok (BitVec.ofNat 64 (flipBits opa n)) := by
    rw [if_neg not_false]
    rfl
  rw [hchecks]
  exact faultsInOrder_ite _

/-- Every command checks its three conditions in the same order, R108. -/
theorem commandResult_faultsInOrder (i : Instr) (opa : Word) (b1 b2 : Buffer) :
    FaultsInOrder (HasZeroWidth i) (ExceedsCapacity i) (ReachesPastTheEnd i b1 b2)
      (commandResult i opa b1 b2) := by
  cases i with
  | flip n => exact flipResult_faultsInOrder n opa
  | subset offset length n => exact faultsInOrder_ite _
  | getmsb t start width => exact faultsInOrder_ite _
  | getlsb t start width => exact faultsInOrder_ite _
  | splice t start1 width1 start2 width2 => exact faultsInOrder_ite _
  | splice2 t start1 width1 start2 width2 => exact faultsInOrder_ite _

section Faults
variable {i : Instr} {s t : State}

/-- `ZeroWidth` is checked first, and its entry is the whole effect (R104, R109). -/
theorem exec_of_hasZeroWidth (hzero : HasZeroWidth i) :
    exec i s = .next { s with res := 0, status := 3, rvalid := true } :=
  exec_eq_next ((commandResult_faultsInOrder i _ _ _).zeroWidth hzero)

/-- `WidthOverflow` is raised where no width is zero, and its entry is the whole effect (R103, R109). -/
theorem exec_of_exceedsCapacity (hzero : ¬ HasZeroWidth i) (hwide : ExceedsCapacity i) :
    exec i s = .next { s with res := 0, status := 2, rvalid := true } :=
  exec_eq_next ((commandResult_faultsInOrder i _ _ _).widthOverflow hzero hwide)

/-- `OutOfRange` is raised where neither other condition holds, and its entry is the whole effect (R102,
R109). -/
theorem exec_of_reachesPastTheEnd (hzero : ¬ HasZeroWidth i) (hwide : ¬ ExceedsCapacity i)
    (hpast : ReachesPastTheEnd i s.buffer1 s.buffer2) :
    exec i s = .next { s with res := 0, status := 1, rvalid := true } :=
  exec_eq_next ((commandResult_faultsInOrder i _ _ _).outOfRange hzero hwide hpast)

/-- The `STATUS` that a command leaves is the highest code of those whose conditions hold (R107, R108). -/
theorem exec_status_toNat {_ : Decidable (HasZeroWidth i)} {_ : Decidable (ExceedsCapacity i)}
    {_ : Decidable (ReachesPastTheEnd i s.buffer1 s.buffer2)} (h : exec i s = .next t) :
    t.status.toNat =
      max (if HasZeroWidth i then 3 else 0) (max (if ExceedsCapacity i then 2 else 0)
        (if ReachesPastTheEnd i s.buffer1 s.buffer2 then 1 else 0)) := by
  obtain rfl := Host.Outcome.next.inj ((exec_eq_next rfl).symm.trans h)
  exact (commandResult_faultsInOrder i _ _ _).status_toNat

/-- FLIP reports `ZeroWidth`, `WidthOverflow` or nothing (R63, R102). -/
theorem exec_flip_status_toNat {n : Nat} (h : exec (.flip n) s = .next t) :
    t.status.toNat = max (if n = 0 then 3 else 0) (if 64 < n then 2 else 0) := by
  have hpast : ¬ ReachesPastTheEnd (.flip n) s.buffer1 s.buffer2 := not_false
  have hdec := Decidable.isFalse hpast
  calc t.status.toNat
    _ = max (if n = 0 then 3 else 0) (max (if 64 < n then 2 else 0)
          (if ReachesPastTheEnd (.flip n) s.buffer1 s.buffer2 then 1 else 0)) := exec_status_toNat h
    _ = max (if n = 0 then 3 else 0) (if 64 < n then 2 else 0) := by
      rw [if_neg hpast, max_eq_left (Nat.zero_le _)]

end Faults

/-! ## What the decoder gives -/

section Fields
variable (w : Word)

theorem start1Of_le : start1Of w ≤ 65535 := Nat.le_of_lt_succ (field_lt w 30 16)
theorem width1Of_le : width1Of w ≤ 127 := Nat.le_of_lt_succ (field_lt w 23 7)
theorem start2Of_le : start2Of w ≤ 65535 := Nat.le_of_lt_succ (field_lt w 7 16)
theorem width2Of_le : width2Of w ≤ 127 := Nat.le_of_lt_succ (field_lt w 0 7)

/-- Operands read from the fields of a word fit those fields (R42). -/
theorem reread_wellFormed (i : Instr) : WellFormed (i.reread w) := by
  cases i with
  | flip n => exact wellFormed_flip.2 (width1Of_le w)
  | subset offset length n =>
    exact wellFormed_subset.2 ⟨start1Of_le w, width1Of_le w, width2Of_le w⟩
  | getmsb t start width => exact wellFormed_getmsb.2 ⟨start1Of_le w, width1Of_le w⟩
  | getlsb t start width => exact wellFormed_getlsb.2 ⟨start1Of_le w, width1Of_le w⟩
  | splice t start1 width1 start2 width2 =>
    exact wellFormed_splice.2 ⟨start1Of_le w, width1Of_le w, start2Of_le w, width2Of_le w⟩
  | splice2 t start1 width1 start2 width2 =>
    exact wellFormed_splice2.2 ⟨start1Of_le w, width1Of_le w, start2Of_le w, width2Of_le w⟩

end Fields

/-- The decoder gives well-formed commands only. -/
theorem wellFormed_of_decode {w : Word} {i : Instr} (h : decode w = .ok i) : WellFormed i := by
  obtain ⟨-, -, hi⟩ := decode_eq_ok_iff.1 h
  exact hi ▸ reread_wellFormed w i

/-! ## What an edge does -/

/-- An edge that accepts a decodable word runs its command (R99, R119). -/
theorem step_of_decode {s : State} {i : Instr} (hr : s.ports.rst = false) (hc : s.ports.cmdValid = true)
    (hd : decode s.ports.cmd = .ok i) : step s = afterEdge (exec i s) := by
  simp [step, hr, hc, hd]

/-- An edge with no reset and no command takes a step (R119). -/
theorem step_of_idle {s : State} (hr : s.ports.rst = false) (hc : s.ports.cmdValid = false) :
    step s = .next (advancePorts (idleEdge s)) := by
  simp [step, hr, hc, afterEdge]

/-- No edge changes `NB`. -/
theorem step_config {s t : State} (h : step s = .next t) : t.config = s.config := by
  obtain ⟨-, rfl⟩ | ⟨-, -, ⟨v, rfl⟩ | ⟨f, rfl⟩⟩ | ⟨-, -, rfl⟩ := step_loads h <;> simp

/-- The ports after an edge are the host's next sample, whatever the edge did (log entry 3). -/
theorem step_ports {s t : State} (h : step s = .next t) :
    t.ports = s.schedule.headD (hostPorts s.config (s.edge + 1)) := by
  obtain ⟨-, rfl⟩ | ⟨-, -, ⟨v, rfl⟩ | ⟨f, rfl⟩⟩ | ⟨-, -, rfl⟩ := step_loads h <;> simp [advancePorts_ports]

/-- A run of two edges is the one step and then the other. -/
theorem run_two {s t u : State} (hst : step s = .next t) (htu : step t = .next u) :
    core.run 2 s = .next u := by
  rw [run_succ hst, run_succ htu]
  rfl

/-! ## The statements -/

/-- Settles O12: one of the three kinds of edge it is, and each takes a step. -/
theorem everyEdgeGivesANextState : Obligations.EveryEdgeGivesANextState := by
  intro s
  cases hr : s.ports.rst with
  | true => exact ⟨_, step_of_rst hr⟩
  | false =>
    cases hc : s.ports.cmdValid with
    | true =>
      obtain ⟨t, ht, -⟩ := step_of_cmdValid hr hc
      exact ⟨t, ht⟩
    | false => exact ⟨_, step_of_idle hr hc⟩

/-- Settles O15: the first edge hands on `NB` and the scheduled sample, the same in both runs, and the second
edge's results depend on those two alone (O14). -/
theorem earlierEdgeDoesNotInfluenceTheNextCommand :
    Obligations.EarlierEdgeDoesNotInfluenceTheNextCommand := by
  intro s s' p rest rest' hconfig hsched hsched' hr hc
  obtain ⟨m, hm⟩ := everyEdgeGivesANextState s
  obtain ⟨m', hm'⟩ := everyEdgeGivesANextState s'
  have hports : m.ports = p := by rw [step_ports hm, hsched]; rfl
  have hports' : m'.ports = p := by rw [step_ports hm', hsched']; rfl
  have hnb : m.config = m'.config := by rw [step_config hm, step_config hm', hconfig]
  obtain ⟨t, t', ht, ht', hres, hstatus⟩ := resultsDependOnTheSampledInputsAlone m m' hnb
    (hports.trans hports'.symm) (hports ▸ hr) (hports ▸ hc)
  exact ⟨t, t', run_two hm ht, run_two hm' ht', hres, hstatus⟩

/-- Settles O39: the statement's conditions are those that every command checks, in the order of their codes. -/
theorem highestFaultCodeWins : Obligations.HighestFaultCodeWins := by
  intro i s t h l1 l2
  cases i with
  | flip n => exact exec_flip_status_toNat h
  | subset offset length n => exact exec_status_toNat h
  | getmsb ty start width => exact exec_status_toNat h
  | getlsb ty start width => exact exec_status_toNat h
  | splice ty start1 width1 start2 width2 => exact exec_status_toNat h
  | splice2 ty start1 width1 start2 width2 => exact exec_status_toNat h

/-- Settles O8: the decoder's command is well formed, and every command completes. -/
theorem stepRunsTheDecodedCommand : Obligations.StepRunsTheDecodedCommand := by
  intro s i hr hc hd
  have hexec := exec_eq_next (i := i) (s := s) rfl
  exact ⟨wellFormed_of_decode hd, _, hexec, by rw [step_of_decode hr hc hd, hexec]; rfl⟩

/-- Settles O36: a zero width is what each command checks first. -/
theorem zeroWidthsFault : Obligations.ZeroWidthsFault := fun _ =>
  ⟨fun _ hzero => exec_of_hasZeroWidth hzero,
    fun _ _ _ hzero => ⟨exec_of_hasZeroWidth hzero, exec_of_hasZeroWidth hzero⟩,
    fun _ _ _ hzero => exec_of_hasZeroWidth hzero,
    fun _ _ _ _ _ hzero => ⟨exec_of_hasZeroWidth hzero, exec_of_hasZeroWidth hzero⟩⟩

/-- Settles O37: past the zero-width check, a width above the capacity is checked next. -/
theorem widthsAboveTheCapacityFault : Obligations.WidthsAboveTheCapacityFault := by
  refine fun s => ⟨fun n hwide => ?_, fun offset length n hpos hwide => ?_, fun t start width hwide => ?_,
    fun t start1 width1 start2 width2 hpos1 hpos2 hwide => ?_⟩
  · have hzero : ¬ n = 0 := by omega
    exact exec_of_exceedsCapacity hzero hwide
  · have hzero : ¬ (length = 0 ∨ n = 0) := by omega
    exact exec_of_exceedsCapacity hzero hwide
  · have hzero : ¬ width = 0 := by omega
    exact ⟨exec_of_exceedsCapacity hzero hwide, exec_of_exceedsCapacity hzero hwide⟩
  · have hzero : ¬ (width1 = 0 ∨ width2 = 0) := by omega
    exact ⟨exec_of_exceedsCapacity hzero hwide, exec_of_exceedsCapacity hzero hwide⟩

/-- Settles O38: the range is checked last, and FLIP has no such check. -/
theorem spansPastTheEndFault : Obligations.SpansPastTheEndFault := by
  refine fun s => ⟨fun t start width hpos hcap hpast => ?_,
    fun t start1 width1 start2 width2 hpos1 hpos2 hcap hpast => ?_,
    fun t start1 width1 start2 width2 hpos1 hpos2 hcap hpast => ?_,
    fun offset length n hlength hn hcap hpast => ?_, fun n t h hstatus => ?_⟩
  · have hzero : ¬ width = 0 := by omega
    have hwide := not_lt.2 hcap
    exact ⟨exec_of_reachesPastTheEnd hzero hwide hpast, exec_of_reachesPastTheEnd hzero hwide hpast⟩
  · have hzero : ¬ (width1 = 0 ∨ width2 = 0) := by omega
    exact exec_of_reachesPastTheEnd hzero (not_lt.2 hcap) hpast
  · have hzero : ¬ (width1 = 0 ∨ width2 = 0) := by omega
    exact exec_of_reachesPastTheEnd hzero (not_lt.2 hcap) hpast
  · have hzero : ¬ (length = 0 ∨ n = 0) := by omega
    exact exec_of_reachesPastTheEnd hzero (not_lt.2 hcap) hpast
  · have hcode := exec_flip_status_toNat h
    rw [hstatus] at hcode
    split_ifs at hcode <;> simp at hcode

end Sys2Proof.Machine
end

section
/-! PROOFS. The statements of 70_reset_and_hazards.md: the clocked rule of R119, and runs as folds of it. First the
rule on the registers and the statement on one edge, then which samples a run consumes, and last the statements on
runs. -/

namespace Sys2Proof.Machine

/-! ## The rule on the registers -/

section Rule
variable {c : Config} {r : Registers} {p : Ports}

theorem edgeRegisters_of_rst (hr : p.rst = true) : edgeRegisters c r p = ⟨0, 0, false⟩ :=
  if_pos hr

theorem edgeRegisters_of_cmdValid (hr : p.rst = false) (hc : p.cmdValid = true) :
    edgeRegisters c r p =
      ⟨(execFunction p.cmd p.opa (p.buffer1 c) (p.buffer2 c)).2,
        (execFunction p.cmd p.opa (p.buffer1 c) (p.buffer2 c)).1, true⟩ := by
  simp [edgeRegisters, hr, hc]

theorem edgeRegisters_of_idle (hr : p.rst = false) (hc : p.cmdValid = false) :
    edgeRegisters c r p = { r with rvalid := false } := by
  simp [edgeRegisters, hr, hc]

end Rule

/-- Over samples without a reset and a command, `RES` and `STATUS` hold, and `RVALID` falls at the first of them
(R16, R127). -/
theorem foldl_edgeRegisters_of_idle (c : Config) {ps : List Ports}
    (hidle : ∀ p ∈ ps, p.rst = false ∧ p.cmdValid = false) (r : Registers) :
    ps.foldl (edgeRegisters c) r = { r with rvalid := r.rvalid && ps.isEmpty } := by
  induction ps generalizing r with
  | nil => simp
  | cons p ps ih =>
    obtain ⟨⟨hr, hc⟩, hrest⟩ := List.forall_mem_cons.1 hidle
    rw [List.foldl_cons, edgeRegisters_of_idle hr hc, ih hrest]
    simp

/-! ## The statement on one edge -/

/-- Settles O9: one equation of `step` for each of the three kinds of edge. -/
theorem stepFollowsTheClockedRule : Obligations.StepFollowsTheClockedRule := by
  intro s
  cases hr : s.ports.rst with
  | true => exact ⟨_, step_of_rst hr, by simp⟩
  | false =>
    cases hc : s.ports.cmdValid with
    | true =>
      obtain ⟨t, ht, hload⟩ := step_of_cmdValid hr hc
      exact ⟨t, ht, by simp, fun _ _ => hload, by simp⟩
    | false => exact ⟨_, step_of_idle hr hc, by simp⟩

/-- Every edge applies the rule to the registers, for the sample that is presented (O9 as one equation). -/
theorem exists_step_registers (s : State) :
    ∃ t, step s = .next t ∧ t.registers = edgeRegisters s.config s.registers s.ports := by
  obtain ⟨t, ht, hreset, hcommand, hidle⟩ := stepFollowsTheClockedRule s
  refine ⟨t, ht, ?_⟩
  cases hr : s.ports.rst with
  | true =>
    obtain ⟨hres, hstatus, hrvalid⟩ := hreset hr
    rw [edgeRegisters_of_rst hr, State.registers, hres, hstatus, hrvalid]
  | false =>
    cases hc : s.ports.cmdValid with
    | true =>
      obtain ⟨hload, hrvalid⟩ := hcommand hr hc
      obtain ⟨hstatus, hres⟩ := Prod.mk.inj hload
      rw [edgeRegisters_of_cmdValid hr hc, State.registers, hres, hstatus, hrvalid]
      rfl
    | false =>
      obtain ⟨hrvalid, hres, hstatus⟩ := hidle hr hc
      rw [edgeRegisters_of_idle hr hc, State.registers, hres, hstatus, hrvalid]
      rfl

/-! ## The samples of a run -/

/-- Every edge takes one sample off the schedule (log entry 3). -/
theorem step_schedule {s t : State} (h : step s = .next t) : t.schedule = s.schedule.tail := by
  obtain ⟨-, rfl⟩ | ⟨-, -, ⟨v, rfl⟩ | ⟨f, rfl⟩⟩ | ⟨-, -, rfl⟩ := step_loads h <;> simp

/-- After an edge out of a state with scheduled samples, what is presented and scheduled is what was scheduled. -/
theorem step_samples {s t : State} (h : step s = .next t) (hne : s.schedule ≠ []) :
    t.ports :: t.schedule = s.schedule := by
  obtain ⟨p, ps, hs⟩ := List.exists_cons_of_ne_nil hne
  rw [step_ports h, step_schedule h, hs]
  rfl

/-! ## The statements on runs -/

/-- Settles O17, by induction on the edges: the first applies the rule to `ports`, and the rest of the run is a run
over `schedule`. -/
theorem runFoldsTheClockedRuleOverItsSamples : Obligations.RunFoldsTheClockedRuleOverItsSamples := by
  intro k
  induction k with
  | zero => exact fun s _ => ⟨s, rfl, rfl⟩
  | succ k ih =>
    intro s hk
    obtain ⟨m, hm, hregs⟩ := exists_step_registers s
    have hlen : k ≤ m.schedule.length + 1 := by
      rw [step_schedule hm, List.length_tail]; omega
    have hsamples : (m.ports :: m.schedule).take k = s.schedule.take k := by
      cases k with
      | zero => rfl
      | succ k => rw [step_samples hm (List.ne_nil_of_length_pos (by omega))]
    obtain ⟨t, ht, hfold⟩ := ih m hlen
    refine ⟨t, (run_succ hm).trans ht, ?_⟩
    rw [hfold, hsamples, step_config hm, hregs, List.take_succ_cons, List.foldl_cons]

/-- Settles O16: the run is the fold of the rule (O17), and the rule holds `RES` and `STATUS` at an idle edge. -/
theorem resultHoldsUntilTheNextCommand : Obligations.ResultHoldsUntilTheNextCommand := by
  intro k s hk hidle
  obtain ⟨t, ht, hfold⟩ := runFoldsTheClockedRuleOverItsSamples k s hk
  rw [foldl_edgeRegisters_of_idle s.config hidle] at hfold
  obtain ⟨hres, hstatus, hrvalid⟩ := Registers.mk.inj hfold
  refine ⟨t, ht, hres, hstatus, fun hpos => ?_⟩
  obtain ⟨j, rfl⟩ := Nat.exists_eq_add_one.2 hpos
  simpa using hrvalid

end Sys2Proof.Machine
end

section
/-! PROOFS. The statement on the model's own inputs, log entry 3: what every edge does to `NB`, the schedule, the
edge count and the ports. -/

namespace Sys2Proof.Machine

/-- Every edge counts itself, whatever it loads into the registers (log entry 3). -/
theorem step_edge {s t : State} (h : step s = .next t) : t.edge = s.edge + 1 := by
  obtain ⟨-, rfl⟩ | ⟨-, -, ⟨v, rfl⟩ | ⟨f, rfl⟩⟩ | ⟨-, -, rfl⟩ := step_loads h <;> simp

/-- Settles O13: one lemma on the step for each of the four fields; the ports are the head of the schedule, or the
host's free values where it is empty. -/
theorem edgeTakesTheNextScheduledPorts : Obligations.EdgeTakesTheNextScheduledPorts := by
  intro s t h
  refine ⟨step_config h, step_schedule h, step_edge h, ?_⟩
  rw [step_ports h]
  cases s.schedule with
  | nil => rfl
  | cons p ps => rfl

end Sys2Proof.Machine
end
